-- ==== Sys2Proof/Word.lean ====
section
/-! DEFINITION. The word types and the data model of 10_state.md section 3: registers, sizes, addressing fields,
addressing modes, operands, the Instruction record and the decode errors. -/

namespace Sys2Proof

/-- A byte of the window, `BYTE_BITS = 8` (R5). -/
abbrev Byte := BitVec 8

/-- An instruction word, `WORD_BITS = 16` (R5). -/
abbrev Word := BitVec 16

/-- A register identifier 0 to 15 (R13). The block holds no register contents. -/
abbrev Reg := Fin 16

/-- The 3-bit condition field of a jump as an integer 0 to 7 (R29). -/
abbrev Condition := Fin 8

/-- OperationSize (R15). -/
inductive OpSize where
  | word
  | byte
deriving DecidableEq, Repr

/-- An addressing field, named by its two binary digits (R64). The 1-bit `Ad` of a DoubleOperand
destination is "treated as mode `00` or `01`". -/
inductive AddrField where
  | f00
  | f01
  | f10
  | f11
deriving DecidableEq, Repr

/-- The three formats (R18, R47). -/
inductive Format where
  | doubleOperand
  | singleOperand
  | conditionalJump
deriving DecidableEq, Repr

/-- The 27 mnemonics in opcode order (R29). Their spellings are `Mnemonic.text` in Machine/Render.lean. -/
inductive Mnemonic where
  | mov | add | addc | subc | sub | cmp | dadd | bit | bic | bis | xor | and
  | rrc | swpb | rra | sxt | push | call | reti
  | jne | jeq | jnc | jc | jn | jge | jl | jmp
deriving DecidableEq, Repr

/-- AddressingMode, the closed type of seven variants (R16). Payloads are mathematical integers (R6); their
ranges are checked in WellFormed.lean. Symbolic is not an eighth variant (90_conflicts.md C3). -/
inductive AddressingMode where
  | registerDirect
  | indexed (off : Int)
  | registerIndirect
  | registerIndirectAutoIncrement (inc : Nat)
  | immediate (val : Nat)
  | absolute (addr : Nat)
  | constant (c : Int)
deriving DecidableEq, Repr

/-- Operand (R17): a register where relevant, and an addressing mode. -/
structure Operand where
  reg : Option Reg
  mode : AddressingMode
deriving DecidableEq, Repr

/-- The Instruction record the block outputs (R18). -/
structure InstrRecord where
  mnemonic : Mnemonic
  format : Format
  size : OpSize
  source : Option Operand
  destination : Option Operand
  condition : Option Condition
  offsetWords : Option Int
  offsetBytes : Option Int
  length : Nat
deriving DecidableEq, Repr

/-- DecodeError (R21). `reservedEncoding` is kept in the type so that it matches the interface; no input
produces it (R143). -/
inductive DecodeError where
  | truncatedInput (needed available : Nat)
  | unknownOpcode (rawWord : Word)
  | reservedEncoding (rawWord : Word)
deriving DecidableEq, Repr

/-- The fields of a DoubleOperand first word besides its opcode nibble (R48): `src_reg`, `Ad`, `bw`, `As`,
`dst_reg`. The destination field has the type of the source field, since one resolver serves both (R75);
that only `00` and `01` may stand there is checked in WellFormed.lean (R82). -/
structure DoubleFields where
  srcReg : Reg
  dstField : AddrField
  size : OpSize
  srcField : AddrField
  dstReg : Reg
deriving DecidableEq, Repr

/-- The fields of a SingleOperand first word whose operation honours the size bit (R49, R101): `bw`, `As`,
`reg`. -/
structure SizedFields where
  size : OpSize
  field : AddrField
  reg : Reg
deriving DecidableEq, Repr

/-- The fields of a SingleOperand first word whose operation is size-invariant (R49, R101): the size bit is
ignored, so it is no part of the instruction. -/
structure UnsizedFields where
  field : AddrField
  reg : Reg
deriving DecidableEq, Repr

end Sys2Proof
end

