-- ==== Sys2Proof/Config.lean ====
section
/-! DEFINITION. The implementation parameters the spec leaves as named parameters (R5; 92_eei_decisions.md D5, D9,
D17). Every other parameter of R5 is fixed by a type or a definition of the model. There is no free value:
the block leaves no value open (R140). -/

namespace Sys2Proof

/-- `TRUNC_PAYLOAD` (D9, U8): how `TruncatedInput` counts bytes. -/
inductive TruncPayload where
  /-- `needed = 2`, `available = len - pos`: the spec's rule R141. -/
  | atCursor
  /-- `needed = pos + 2`, `available = len`: the open alternative. -/
  | cumulative
deriving DecidableEq, Repr

/-- The named parameters of the spec. -/
structure Config where
  /-- `DST_CG2_INDEXED` (D5, U4): whether destination register 3 with `Ad = 1` is Indexed on register 3 and
  reads an extension word. -/
  dstCg2Indexed : Bool
  /-- `TRUNC_PAYLOAD` (D9, U8). -/
  truncPayload : TruncPayload
  /-- `RENDER_BASE` (D17): the numeral base of the text formatter. What a numeral in a base other than 10 looks like is
  the model's choice (notes/assumptions/19.md). -/
  renderBase : Nat
deriving DecidableEq, Repr

/-- The block as the spec's rules describe it: every parameter at its default (R5, R82, R141, R129). -/
def Config.block : Config where
  dstCg2Indexed := false
  truncPayload := .atCursor
  renderBase := 10

end Sys2Proof
end

