-- ==== Sys2Proof/Syntax.lean ====
section
/-! DEFINITION. The instructions: one constructor per row of spec/opcode_table.json. -/

namespace Sys2Proof

/-- A decoded first word. "The first word alone determines the format, the mnemonic, the size, every register
and addressing field, and therefore the number of extension words and the length" (R46); the extension words
stay in the window, where the operand resolver reads them (R72). The bits that are not consulted (R58) are no
part of an instruction: all seven low bits of RETI, and the size bit of SWPB, SXT and CALL. -/
inductive Instr where
  | mov (f : DoubleFields)
  | add (f : DoubleFields)
  | addc (f : DoubleFields)
  | subc (f : DoubleFields)
  | sub (f : DoubleFields)
  | cmp (f : DoubleFields)
  | dadd (f : DoubleFields)
  | bit (f : DoubleFields)
  | bic (f : DoubleFields)
  | bis (f : DoubleFields)
  | xor (f : DoubleFields)
  | and (f : DoubleFields)
  | rrc (f : SizedFields)
  | swpb (f : UnsizedFields)
  | rra (f : SizedFields)
  | sxt (f : UnsizedFields)
  | push (f : SizedFields)
  | call (f : UnsizedFields)
  | reti
  | jne (off10 : BitVec 10)
  | jeq (off10 : BitVec 10)
  | jnc (off10 : BitVec 10)
  | jc (off10 : BitVec 10)
  | jn (off10 : BitVec 10)
  | jge (off10 : BitVec 10)
  | jl (off10 : BitVec 10)
  | jmp (off10 : BitVec 10)
deriving DecidableEq, Repr

/-- The mnemonic of an instruction (R54, R55, R56). -/
def Instr.mnemonic : Instr → Mnemonic
  | .mov _ => .mov
  | .add _ => .add
  | .addc _ => .addc
  | .subc _ => .subc
  | .sub _ => .sub
  | .cmp _ => .cmp
  | .dadd _ => .dadd
  | .bit _ => .bit
  | .bic _ => .bic
  | .bis _ => .bis
  | .xor _ => .xor
  | .and _ => .and
  | .rrc _ => .rrc
  | .swpb _ => .swpb
  | .rra _ => .rra
  | .sxt _ => .sxt
  | .push _ => .push
  | .call _ => .call
  | .reti => .reti
  | .jne _ => .jne
  | .jeq _ => .jeq
  | .jnc _ => .jnc
  | .jc _ => .jc
  | .jn _ => .jn
  | .jge _ => .jge
  | .jl _ => .jl
  | .jmp _ => .jmp

end Sys2Proof
end

