-- ==== Sys2Proof/WellFormed.lean ====
section
/-! DEFINITION. Which instructions the encoding admits, and which Instruction records the block may output: the
invariants of 10_state.md rules R16 to R20 and R29, one check each. -/

namespace Sys2Proof

/-- "the destination never uses indirect or autoincrement modes" (R82). -/
def DoubleFields.wf (f : DoubleFields) : Bool :=
  f.dstField = .f00 || f.dstField = .f01

/-- An instruction the encoding admits. Every other field of an instruction is in range by its type. -/
def Instr.wf : Instr → Bool
  | .mov f => f.wf
  | .add f => f.wf
  | .addc f => f.wf
  | .subc f => f.wf
  | .sub f => f.wf
  | .cmp f => f.wf
  | .dadd f => f.wf
  | .bit f => f.wf
  | .bic f => f.wf
  | .bis f => f.wf
  | .xor f => f.wf
  | .and f => f.wf
  | .rrc _ => true
  | .swpb _ => true
  | .rra _ => true
  | .sxt _ => true
  | .push _ => true
  | .call _ => true
  | .reti => true
  | .jne _ => true
  | .jeq _ => true
  | .jnc _ => true
  | .jc _ => true
  | .jn _ => true
  | .jge _ => true
  | .jl _ => true
  | .jmp _ => true

/-- The format a mnemonic determines (R29). -/
def Mnemonic.format : Mnemonic → Format
  | .mov | .add | .addc | .subc | .sub | .cmp | .dadd | .bit | .bic | .bis | .xor | .and => .doubleOperand
  | .rrc | .swpb | .rra | .sxt | .push | .call | .reti => .singleOperand
  | .jne | .jeq | .jnc | .jc | .jn | .jge | .jl | .jmp => .conditionalJump

/-- The condition that a jump's mnemonic determines (R29, R56). -/
def Mnemonic.condition : Mnemonic → Option Condition
  | .jne => some 0
  | .jeq => some 1
  | .jnc => some 2
  | .jc => some 3
  | .jn => some 4
  | .jge => some 5
  | .jl => some 6
  | .jmp => some 7
  | .mov | .add | .addc | .subc | .sub | .cmp | .dadd | .bit | .bic | .bis | .xor | .and => none
  | .rrc | .swpb | .rra | .sxt | .push | .call | .reti => none

/-- Whether the size of a mnemonic's record may be Byte: all DoubleOperand operations (R86), and the
size-variant SingleOperand operations (`SIZE_VARIANT`, R101). A jump has no size bit (R50). -/
def Mnemonic.sizeVariant : Mnemonic → Bool
  | .mov | .add | .addc | .subc | .sub | .cmp | .dadd | .bit | .bic | .bis | .xor | .and => true
  | .rrc | .rra | .push => true
  | .swpb | .sxt | .call | .reti => false
  | .jne | .jeq | .jnc | .jc | .jn | .jge | .jl | .jmp => false

/-- The register column of R17: `none` for Constant and Immediate, `some 2` for Absolute, `some r` otherwise. -/
def Operand.regOk (o : Operand) : Bool :=
  match o.mode with
  | .constant _ => o.reg.isNone
  | .immediate _ => o.reg.isNone
  | .absolute _ => o.reg = some 2
  | .registerDirect => o.reg.isSome
  | .indexed _ => o.reg.isSome
  | .registerIndirect => o.reg.isSome
  | .registerIndirectAutoIncrement _ => o.reg.isSome

/-- The payload ranges of R16. -/
def Operand.payloadOk (o : Operand) : Bool :=
  match o.mode with
  | .indexed off => -32768 ≤ off && off ≤ 32767
  | .registerIndirectAutoIncrement inc => inc = 1 || inc = 2
  | .immediate val => val ≤ 65535
  | .absolute addr => addr ≤ 65535
  | .constant c => [0, 1, 2, 4, 8, -1].contains c
  | .registerDirect => true
  | .registerIndirect => true

/-- The registers that R16 lets produce each variant. -/
def Operand.producedOk (o : Operand) : Bool :=
  match o.mode with
  | .registerDirect => o.reg ≠ some 3
  | .indexed _ => o.reg ≠ some 2 && o.reg ≠ some 3
  | .registerIndirect => o.reg ≠ some 2 && o.reg ≠ some 3
  | .registerIndirectAutoIncrement _ => o.reg ≠ some 0 && o.reg ≠ some 2 && o.reg ≠ some 3
  | .immediate _ => true
  | .absolute _ => true
  | .constant _ => true

/-- The increment amount is "1 for Byte size, 2 for Word size" (R16, R79). -/
def Operand.incOk (size : OpSize) (o : Operand) : Bool :=
  match o.mode with
  | .registerIndirectAutoIncrement inc => inc = (if size = .byte then 1 else 2)
  | _ => true

/-- The four checks of an operand together. -/
def Operand.wf (size : OpSize) (o : Operand) : Bool :=
  o.regOk && o.payloadOk && o.producedOk && o.incOk size

/-- The modes of a DoubleOperand destination (R19, R82). -/
def Operand.destinationOk (o : Operand) : Bool :=
  match o.mode with
  | .registerDirect => true
  | .indexed _ => true
  | .absolute _ => true
  | .constant c => c = 0 || c = 1
  | .registerIndirect => false
  | .registerIndirectAutoIncrement _ => false
  | .immediate _ => false

/-- Whether an operand consumed an extension word: exactly when its mode is Indexed, Absolute or Immediate
(R20, R81). -/
def Operand.consumed (o : Operand) : Bool :=
  match o.mode with
  | .indexed _ => true
  | .absolute _ => true
  | .immediate _ => true
  | .registerDirect => false
  | .registerIndirect => false
  | .registerIndirectAutoIncrement _ => false
  | .constant _ => false

/-- Symbolic addressing is Indexed on register 0 (R16; 90_conflicts.md C3): "a consumer that wants the
document's 'Symbolic' tests `reg = some 0`" (R77). -/
def Operand.isSymbolic (o : Operand) : Bool :=
  match o.mode with
  | .indexed _ => o.reg = some 0
  | _ => false

/-- The mnemonic of a record determines its format (R29). -/
def InstrRecord.formatOk (r : InstrRecord) : Bool :=
  r.format = r.mnemonic.format

/-- Which operands are present (R19): both, the destination alone, or none. -/
def InstrRecord.presenceOk (r : InstrRecord) : Bool :=
  match r.format with
  | .doubleOperand => r.source.isSome && r.destination.isSome
  | .singleOperand => r.source.isNone && (r.destination.isSome = (r.mnemonic ≠ .reti))
  | .conditionalJump => r.source.isNone && r.destination.isNone

/-- The operands that are present are well formed, and a DoubleOperand destination is restricted (R16, R17,
R19). -/
def InstrRecord.operandsOk (r : InstrRecord) : Bool :=
  r.source.all (·.wf r.size) && r.destination.all (·.wf r.size) &&
    (r.format ≠ .doubleOperand || r.destination.all (·.destinationOk))

/-- The size is Word where no size bit is honoured (R19, R101). -/
def InstrRecord.sizeOk (r : InstrRecord) : Bool :=
  r.mnemonic.sizeVariant || r.size = .word

/-- "for a jump the mnemonic and the condition determine each other" (R29); no other record has one (R19). -/
def InstrRecord.conditionOk (r : InstrRecord) : Bool :=
  r.condition = r.mnemonic.condition

/-- A jump's offsets are present, in range, and `offset_bytes = 2 * offset_words`; no other record has any
(R18, R19). -/
def InstrRecord.offsetsOk (r : InstrRecord) : Bool :=
  match r.offsetWords, r.offsetBytes with
  | some ow, some ob => r.format = .conditionalJump && -512 ≤ ow && ow ≤ 511 && ob = 2 * ow
  | none, none => r.format ≠ .conditionalJump
  | _, _ => false

/-- The number of extension words the operands of a record consumed (R20). -/
def InstrRecord.extWords (r : InstrRecord) : Nat :=
  (if r.source.any (·.consumed) then 1 else 0) + (if r.destination.any (·.consumed) then 1 else 0)

/-- `length = 2 + 2 * (number of operands … whose mode is Indexed, Absolute or Immediate)` (R20). -/
def InstrRecord.lengthOk (r : InstrRecord) : Bool :=
  r.length = 2 + 2 * r.extWords

/-- A record that the rules let the block output. -/
def InstrRecord.wf (r : InstrRecord) : Bool :=
  r.formatOk && r.presenceOk && r.operandsOk && r.sizeOk && r.conditionOk && r.offsetsOk && r.lengthOk

end Sys2Proof
end

