-- ==== Sys2Proof/Decode.lean ====
section
/-! DEFINITION. Bits of a word and byte order (R6, R33), the format classifier (R70), the decoder of a first word
(R47 to R57), total on any bytes and rejecting with a typed error; the length of an instruction from its first
word (R53); then the encoders, written from the same encoding tables, and the opcode table's fixed fields. -/

namespace Sys2Proof

/-! ## Bits, signs and byte order -/

/-- `w[hi:lo] = (w >> lo) mod 2^(hi-lo+1)` (R6). -/
def slice (w : Word) (hi lo : Nat) : Nat :=
  w.toNat / 2 ^ lo % 2 ^ (hi - lo + 1)

/-- `signed_k(v)`: `v` if `v < 2^(k-1)`, otherwise `v - 2^k` (R6). -/
def signed (k v : Nat) : Int :=
  if v < 2 ^ (k - 1) then (v : Int) else (v : Int) - 2 ^ k

/-- The two's-complement pattern of an integer in `k` bits, the inverse of `signed` (R6). -/
def unsigned (k : Nat) (z : Int) : Nat :=
  (z % 2 ^ k).toNat

/-- "the byte at the lower address is the low-order byte … and the byte at the higher address is the
high-order byte" (R33). -/
def wordOfBytes (lo hi : Byte) : Word :=
  BitVec.ofNat 16 (lo.toNat + 256 * hi.toNat)

/-- The two bytes of a word as the window holds them, low byte first (R33). -/
def bytesOfWord (w : Word) : List Byte :=
  [BitVec.ofNat 8 (w.toNat % 256), BitVec.ofNat 8 (w.toNat / 256)]

/-- `TruncatedInput` raised by a word read at position `pos` of a window of `len` bytes (R141; the payload
parameter is D9). -/
def truncatedAt (cfg : Config) (pos len : Nat) : DecodeError :=
  match cfg.truncPayload with
  | .atCursor => .truncatedInput 2 (len - pos)
  | .cumulative => .truncatedInput (pos + 2) len

/-! ## Fields of a first word -/

/-- A 4-bit register field (R13). -/
def regField (w : Word) (lo : Nat) : Reg :=
  ⟨slice w (lo + 3) lo % 16, Nat.mod_lt _ (by decide)⟩

/-- An addressing field as a number 0 to 3 (R64, R75). -/
def AddrField.ofNumber : Nat → AddrField
  | 0 => .f00
  | 1 => .f01
  | 2 => .f10
  | _ => .f11

/-- "size bit maps 0→Word, 1→Byte" (R15), at bit 6 (R48, R49). -/
def sizeField (w : Word) : OpSize :=
  if slice w 6 6 = 1 then .byte else .word

/-- The DoubleOperand fields (R48). The 1-bit `Ad` is "treated as mode `00` or `01`" (R64). -/
def doubleFields (w : Word) : DoubleFields where
  srcReg := regField w 8
  dstField := AddrField.ofNumber (slice w 7 7)
  size := sizeField w
  srcField := AddrField.ofNumber (slice w 5 4)
  dstReg := regField w 0

/-- The SingleOperand fields of a size-variant operation (R49, R101). -/
def sizedFields (w : Word) : SizedFields where
  size := sizeField w
  field := AddrField.ofNumber (slice w 5 4)
  reg := regField w 0

/-- The SingleOperand fields of a size-invariant operation: bit 6 is ignored (R49, R101). -/
def unsizedFields (w : Word) : UnsizedFields where
  field := AddrField.ofNumber (slice w 5 4)
  reg := regField w 0

/-- The jump's `off10` (R50). -/
def off10Field (w : Word) : BitVec 10 :=
  BitVec.ofNat 10 (slice w 9 0)

/-! ## The format classifier and the opcode maps -/

/-- `classify(w)` (R70); `none` is `raise UnknownOpcode(raw_word = w)`. -/
def classify (w : Word) : Option Format :=
  if slice w 15 13 = 0b001 then some .conditionalJump
  else if 0x4 ≤ slice w 15 12 then some .doubleOperand
  else if slice w 15 10 = 0b000100 ∧ slice w 9 7 ≤ 6 then some .singleOperand
  else none

/-- The DoubleOperand opcode map, `w[15:12]` to mnemonic (R54). -/
def doubleInstr (w : Word) : Option Instr :=
  match slice w 15 12 with
  | 0x4 => some (.mov (doubleFields w))
  | 0x5 => some (.add (doubleFields w))
  | 0x6 => some (.addc (doubleFields w))
  | 0x7 => some (.subc (doubleFields w))
  | 0x8 => some (.sub (doubleFields w))
  | 0x9 => some (.cmp (doubleFields w))
  | 0xA => some (.dadd (doubleFields w))
  | 0xB => some (.bit (doubleFields w))
  | 0xC => some (.bic (doubleFields w))
  | 0xD => some (.bis (doubleFields w))
  | 0xE => some (.xor (doubleFields w))
  | 0xF => some (.and (doubleFields w))
  | _ => none

/-- The SingleOperand opcode map, operation number `w[9:7]` to mnemonic (R55). -/
def singleInstr (w : Word) : Option Instr :=
  match slice w 9 7 with
  | 0 => some (.rrc (sizedFields w))
  | 1 => some (.swpb (unsizedFields w))
  | 2 => some (.rra (sizedFields w))
  | 3 => some (.sxt (unsizedFields w))
  | 4 => some (.push (sizedFields w))
  | 5 => some (.call (unsizedFields w))
  | 6 => some .reti
  | _ => none

/-- The ConditionalJump condition map, `w[12:10]` to mnemonic (R56). -/
def jumpInstr (w : Word) : Option Instr :=
  match slice w 12 10 with
  | 0 => some (.jne (off10Field w))
  | 1 => some (.jeq (off10Field w))
  | 2 => some (.jnc (off10Field w))
  | 3 => some (.jc (off10Field w))
  | 4 => some (.jn (off10Field w))
  | 5 => some (.jge (off10Field w))
  | 6 => some (.jl (off10Field w))
  | 7 => some (.jmp (off10Field w))
  | _ => none

/-- The opcode lookup of a classified word. It "cannot fail after classification" (R73). -/
def lookup (fmt : Format) (w : Word) : Option Instr :=
  match fmt with
  | .conditionalJump => jumpInstr w
  | .doubleOperand => doubleInstr w
  | .singleOperand => singleInstr w

/-- The instruction of a first word, or `UnknownOpcode` carrying that word (R72, R142). -/
def decodeWord (w : Word) : Except DecodeError Instr :=
  match classify w with
  | none => .error (.unknownOpcode w)
  | some fmt =>
    match lookup fmt w with
    | some i => .ok i
    | none => .error (.unknownOpcode w)

/-- The decoder on any bytes: fewer than two are `TruncatedInput` (R74), otherwise the first word decides
(R46). -/
def decodeBytes : List Byte → Except DecodeError Instr
  | lo :: hi :: _ => decodeWord (wordOfBytes lo hi)
  | bs => .error (truncatedAt Config.block 0 bs.length)

/-! ## Length from the first word -/

/-- `ext(mode, reg)`: the number of extension words of an operand (R53). -/
def extWords (mode : AddrField) (reg : Reg) : Nat :=
  if mode = .f01 ∧ reg ≠ 3 then 1
  else if mode = .f11 ∧ reg = 0 then 1
  else 0

/-- The length in bytes of the instruction whose first word is `w` (R53); `none` for an unknown word. -/
def lengthOfWord (w : Word) : Option Nat :=
  match classify w with
  | none => none
  | some .conditionalJump => some 2
  | some .doubleOperand =>
    some (2 + 2 * extWords (AddrField.ofNumber (slice w 5 4)) (regField w 8)
      + 2 * extWords (AddrField.ofNumber (slice w 7 7)) (regField w 0))
  | some .singleOperand =>
    if slice w 9 7 = 6 then some 2
    else some (2 + 2 * extWords (AddrField.ofNumber (slice w 5 4)) (regField w 0))

/-! ## The encoders -/

/-- The number of an addressing field (R64). -/
def AddrField.number : AddrField → Nat
  | .f00 => 0
  | .f01 => 1
  | .f10 => 2
  | .f11 => 3

/-- The size bit (R15). -/
def OpSize.toBit : OpSize → Nat
  | .word => 0
  | .byte => 1

/-- `oooo ssss d b aa rrrr` (R48). -/
def encodeDouble (opcode : Nat) (f : DoubleFields) : Word :=
  BitVec.ofNat 16 (opcode * 4096 + f.srcReg.val * 256 + f.dstField.number % 2 * 128 + f.size.toBit * 64
    + f.srcField.number * 16 + f.dstReg.val)

/-- `000100 ppp b aa rrrr` with the size bit honoured (R49). -/
def encodeSized (op : Nat) (f : SizedFields) : Word :=
  BitVec.ofNat 16 (4 * 1024 + op * 128 + f.size.toBit * 64 + f.field.number * 16 + f.reg.val)

/-- `000100 ppp x aa rrrr`, the ignored bit written 0 (R49, R58). -/
def encodeUnsized (op : Nat) (f : UnsizedFields) : Word :=
  BitVec.ofNat 16 (4 * 1024 + op * 128 + f.field.number * 16 + f.reg.val)

/-- `001 ccc oooooooooo` (R50). -/
def encodeJump (cond : Nat) (off10 : BitVec 10) : Word :=
  BitVec.ofNat 16 (1 * 8192 + cond * 1024 + off10.toNat)

/-- The first word of an instruction (R54, R55, R56). RETI is written `0x1300`, its ignored bits 0 (R58). -/
def encode : Instr → Word
  | .mov f => encodeDouble 0x4 f
  | .add f => encodeDouble 0x5 f
  | .addc f => encodeDouble 0x6 f
  | .subc f => encodeDouble 0x7 f
  | .sub f => encodeDouble 0x8 f
  | .cmp f => encodeDouble 0x9 f
  | .dadd f => encodeDouble 0xA f
  | .bit f => encodeDouble 0xB f
  | .bic f => encodeDouble 0xC f
  | .bis f => encodeDouble 0xD f
  | .xor f => encodeDouble 0xE f
  | .and f => encodeDouble 0xF f
  | .rrc f => encodeSized 0 f
  | .swpb f => encodeUnsized 1 f
  | .rra f => encodeSized 2 f
  | .sxt f => encodeUnsized 3 f
  | .push f => encodeSized 4 f
  | .call f => encodeUnsized 5 f
  | .reti => BitVec.ofNat 16 (4 * 1024 + 6 * 128)
  | .jne o => encodeJump 0 o
  | .jeq o => encodeJump 1 o
  | .jnc o => encodeJump 2 o
  | .jc o => encodeJump 3 o
  | .jn o => encodeJump 4 o
  | .jge o => encodeJump 5 o
  | .jl o => encodeJump 6 o
  | .jmp o => encodeJump 7 o

/-- The addressing field and register that produce an operand (R80, read backwards). An operand the resolver
never produces gets a field of no meaning; `InstrRecord.wf` excludes it. -/
def Operand.fieldAndReg (o : Operand) : AddrField × Reg :=
  match o.mode with
  | .registerDirect => (.f00, o.reg.getD 0)
  | .indexed _ => (.f01, o.reg.getD 0)
  | .registerIndirect => (.f10, o.reg.getD 0)
  | .registerIndirectAutoIncrement _ => (.f11, o.reg.getD 0)
  | .immediate _ => (.f11, 0)
  | .absolute _ => (.f01, 2)
  | .constant c =>
    if c = 0 then (.f00, 3)
    else if c = 1 then (.f01, 3)
    else if c = 2 then (.f10, 3)
    else if c = 4 then (.f10, 2)
    else if c = 8 then (.f11, 2)
    else (.f11, 3)

/-- The extension word of an operand (R51). -/
def Operand.extension (o : Operand) : List Word :=
  match o.mode with
  | .indexed off => [BitVec.ofNat 16 (unsigned 16 off)]
  | .immediate val => [BitVec.ofNat 16 val]
  | .absolute addr => [BitVec.ofNat 16 addr]
  | .registerDirect => []
  | .registerIndirect => []
  | .registerIndirectAutoIncrement _ => []
  | .constant _ => []

/-- An operand that stands for an absent one in the record encoder. -/
def Operand.absent : Operand where
  reg := some 0
  mode := .registerDirect

/-- The instruction that a record's mnemonic, size, operands and offset stand for. -/
def InstrRecord.instr (r : InstrRecord) : Instr :=
  let src := (r.source.getD Operand.absent).fieldAndReg
  let dst := (r.destination.getD Operand.absent).fieldAndReg
  let dbl : DoubleFields := ⟨src.2, dst.1, r.size, src.1, dst.2⟩
  let sized : SizedFields := ⟨r.size, dst.1, dst.2⟩
  let unsized : UnsizedFields := ⟨dst.1, dst.2⟩
  let off10 : BitVec 10 := BitVec.ofNat 10 (unsigned 10 (r.offsetWords.getD 0))
  match r.mnemonic with
  | .mov => .mov dbl
  | .add => .add dbl
  | .addc => .addc dbl
  | .subc => .subc dbl
  | .sub => .sub dbl
  | .cmp => .cmp dbl
  | .dadd => .dadd dbl
  | .bit => .bit dbl
  | .bic => .bic dbl
  | .bis => .bis dbl
  | .xor => .xor dbl
  | .and => .and dbl
  | .rrc => .rrc sized
  | .swpb => .swpb unsized
  | .rra => .rra sized
  | .sxt => .sxt unsized
  | .push => .push sized
  | .call => .call unsized
  | .reti => .reti
  | .jne => .jne off10
  | .jeq => .jeq off10
  | .jnc => .jnc off10
  | .jc => .jc off10
  | .jn => .jn off10
  | .jge => .jge off10
  | .jl => .jl off10
  | .jmp => .jmp off10

/-- All the words of the instruction a record describes: the first word, then the source's extension word, then
the destination's (R46, R52). -/
def encodeRecord (r : InstrRecord) : List Word :=
  encode r.instr :: ((r.source.map (·.extension)).getD [] ++ (r.destination.map (·.extension)).getD [])

/-- Words as the window holds them (R33, R46). -/
def bytesOfWords (ws : List Word) : List Byte :=
  ws.flatMap bytesOfWord

/-! ## The opcode table -/

/-- The fixed field of each row of spec/opcode_table.json: its lowest bit `lo` (the highest is 15) and its
value (R54, R55, R56). -/
def Mnemonic.fixedField : Mnemonic → Nat × Nat
  | .mov => (12, 0x4)
  | .add => (12, 0x5)
  | .addc => (12, 0x6)
  | .subc => (12, 0x7)
  | .sub => (12, 0x8)
  | .cmp => (12, 0x9)
  | .dadd => (12, 0xA)
  | .bit => (12, 0xB)
  | .bic => (12, 0xC)
  | .bis => (12, 0xD)
  | .xor => (12, 0xE)
  | .and => (12, 0xF)
  | .rrc => (7, 0x020)
  | .swpb => (7, 0x021)
  | .rra => (7, 0x022)
  | .sxt => (7, 0x023)
  | .push => (7, 0x024)
  | .call => (7, 0x025)
  | .reti => (7, 0x026)
  | .jne => (10, 8)
  | .jeq => (10, 9)
  | .jnc => (10, 10)
  | .jc => (10, 11)
  | .jn => (10, 12)
  | .jge => (10, 13)
  | .jl => (10, 14)
  | .jmp => (10, 15)

/-- Whether a word matches a row of the opcode table. -/
def Mnemonic.matchesWord (m : Mnemonic) (w : Word) : Bool :=
  slice w 15 m.fixedField.1 = m.fixedField.2

/-! ## The host's numbering of an instruction's bits -/

/-- The six bytes of an instruction whose bits are `w`, bit 0 the least significant bit of the first word: each
word little-endian, every bit from `nbits` on 0, up to `MAX_LEN` = 6 bytes (R5, R33). -/
def tableBytes (nbits w : Nat) : List Byte :=
  let v := w % 2 ^ nbits
  [BitVec.ofNat 8 v, BitVec.ofNat 8 (v / 2 ^ 8), BitVec.ofNat 8 (v / 2 ^ 16),
   BitVec.ofNat 8 (v / 2 ^ 24), BitVec.ofNat 8 (v / 2 ^ 32), BitVec.ofNat 8 (v / 2 ^ 40)]

/-- The instruction the decoder reads from an instruction whose bits are `w`. -/
def decodeTableWord (nbits w : Nat) : Option Instr :=
  (decodeBytes (tableBytes nbits w)).toOption

end Sys2Proof
end

