-- ==== Sys2Proof/Machine/Offset.lean ====
section
/-! DEFINITION. The sign-extended offset extractor (R112). -/

namespace Sys2Proof.Machine

/-- `jump_offset` (R112): `offset_words` and `offset_bytes` of the 10-bit field. "the values are mathematical
integers; there is no wrap-around, saturation or rounding". -/
def jumpOffset (off10 : BitVec 10) : Int × Int :=
  (signed 10 off10.toNat, 2 * signed 10 off10.toNat)

end Sys2Proof.Machine
end

