-- ==== Sys2Proof/Machine/State.lean ====
section
/-! DEFINITION. The machine's state: the input window, the cursor position and the outcome output; the reasons a step
can stop (none); the state after reset. -/

namespace Sys2Proof.Machine

/-! ## The window -/

/-- What an address of the window that the list does not name holds. It is a convention of the representation
only: the caller presents every byte of the window (R11), and a zero byte is presented by leaving it unlisted.
[DESIGN CHOICE, safe: notes/assumptions/1.md] -/
def unlistedByte : Byte := 0

/-- The input window `buf` and its length `len` (R11, R30, R31): the block's whole memory, addresses 0 to
`len - 1`. The cells are in one canonical form, which `Memory.wf` states. -/
structure Memory where
  /-- `len`, the number of bytes presented (R11). -/
  len : Nat
  /-- The bytes that differ from `unlistedByte`, addresses strictly rising. -/
  cells : List Host.Cell
deriving DecidableEq, Repr

/-- The cells are strictly rising from address `lo` on, below `len`, and none holds `unlistedByte`. -/
def Memory.cellsOk (len : Nat) : Nat → List Host.Cell → Bool
  | _, [] => true
  | lo, (a, b) :: rest => lo ≤ a && a < len && b ≠ unlistedByte && Memory.cellsOk len (a + 1) rest

/-- The canonical form of a window. -/
def Memory.wf (m : Memory) : Bool :=
  Memory.cellsOk m.len 0 m.cells

/-- The window of no bytes. -/
def Memory.empty : Memory where
  len := 0
  cells := []

/-! ## The output -/

/-- The outcome output of the block (R12). One activation produces exactly one outcome, `ok i` or `error e`;
that no field of a record can be read under an error is in the type (R12, R146). -/
inductive Output where
  /-- No activation has completed yet: the moment before the first outcome, which R157 leaves unspecified, so
  that nothing can be read from it. [DESIGN CHOICE, safe: notes/assumptions/2.md] -/
  | pending
  /-- `ok i`: the Instruction record. -/
  | ok (r : InstrRecord)
  /-- `error e`: the decode error and its payload, and nothing else. -/
  | error (e : DecodeError)
deriving DecidableEq, Repr

/-! ## State -/

/-- Everything the spec gives the block: nothing survives an activation but the caller's window (R10, R27), and
within one the only state is `pos` (R9, R22). The outcome stands in the state so that a step can show it. -/
structure State where
  /-- The window `buf` and `len`, owned by the caller (R11, R32). -/
  window : Memory
  /-- The cursor position: the count of bytes consumed in this activation (R22). -/
  pos : Nat
  /-- The outcome of the last activation (R12). It stays until the next activation ends, also when a new window is
  presented: what the outputs show between activations the spec leaves unspecified (U7).
  [DESIGN CHOICE, unsafe: notes/assumptions/18.md] -/
  out : Output
deriving DecidableEq, Repr

/-- A reason to stop with a fault. The block has none: "the decoder never aborts the process on malformed
input — all failure paths return a typed error" (R140), and a typed error is an outcome of a step that goes
on. Safe: the type has no constructor, so that no step can fault. -/
inductive Fault where
deriving DecidableEq, Repr

/-- A reason to refuse an instruction. -/
inductive Refusal where
  /-- An arm of `exec` that gives its instruction no meaning yet. No arm of this model raises it. Safe. -/
  | notModelled (mnemonic : String)
deriving DecidableEq, Repr

/-- The state after reset: nothing presented, `pos = 0` (R28, R157), no outcome yet.
[The empty window is a DESIGN CHOICE: notes/assumptions/3.md] -/
def State.reset : State where
  window := Memory.empty
  pos := 0
  out := .pending

end Sys2Proof.Machine
end

