-- ==== Sys2Proof/Machine/Ops.lean ====
section
/-! DEFINITION. The named operations over the window and the cursor: reading the window (R30 to R34), presenting
one (R11), the word cursor (R65 to R67), and the two ways an activation ends, `raise` and `return` (R7, R146). -/

namespace Sys2Proof.Machine

/-! ## The window -/

/-- The byte a list of cells gives an address. -/
def lookupCell : List Host.Cell → Nat → Byte
  | [], _ => unlistedByte
  | (k, b) :: rest, a => if k = a then b else lookupCell rest a

/-- `buf[a]`, for `a < len`; "an address at or beyond `len` is never read" (R31). -/
def Memory.byte (m : Memory) (a : Nat) : Option Byte :=
  if a < m.len then some (lookupCell m.cells a) else none

/-- `MemRead(a, 2)`, little-endian, defined only when `a + 2 <= len` (R7, R33). -/
def Memory.word (m : Memory) (a : Nat) : Option Word :=
  match m.byte a, m.byte (a + 1) with
  | some lo, some hi => some (wordOfBytes lo hi)
  | _, _ => none

/-- The cells of a sequence of bytes that starts at address `a`. -/
def cellsOf : Nat → List Byte → List Host.Cell
  | _, [] => []
  | a, b :: rest => if b = unlistedByte then cellsOf (a + 1) rest else (a, b) :: cellsOf (a + 1) rest

/-- The window that a sequence of bytes makes (R11). -/
def Memory.ofBytes (bs : List Byte) : Memory where
  len := bs.length
  cells := cellsOf 0 bs

/-- The bytes of a window, address 0 first (R31). -/
def Memory.toBytes (m : Memory) : List Byte :=
  (List.range m.len).map (lookupCell m.cells)

/-- The caller presents a window (R11, R158). It changes nothing of the block's own: the last outcome stays in `out`
until the next activation ends, where the spec leaves the outputs between activations unspecified (U7).
[DESIGN CHOICE, unsafe: notes/assumptions/18.md] -/
def State.present (s : State) (bs : List Byte) : State :=
  { s with window := Memory.ofBytes bs }

/-! ## The cursor -/

/-- What an operation that may raise answers: a value and the state after it, or a decode error and the state
it was raised in ("every resolver/classifier step returns failure upward immediately", R84). -/
inductive CursorResult (α : Type) where
  | ok (a : α) (s : State)
  | raised (e : DecodeError) (s : State)
deriving DecidableEq, Repr

/-- The start of an activation: `pos <- 0` (R22, R72). -/
def State.begin (s : State) : State :=
  { s with pos := 0 }

/-- The word of the window at an address that the bounds check has passed. -/
def State.wordAt (s : State) (a : Nat) : Word :=
  wordOfBytes (lookupCell s.window.cells a) (lookupCell s.window.cells (a + 1))

/-- `take_word()` (R65): the bounds check, the little-endian word at the cursor, `pos <- pos + 2`. -/
def takeWord (cfg : Config) (s : State) : CursorResult Word :=
  if s.window.len - s.pos < 2 then .raised (truncatedAt cfg s.pos s.window.len) s
  else .ok (s.wordAt s.pos) { s with pos := s.pos + 2 }

/-- `peek_word(offset)` (R66): the word `offset` bytes after the cursor, `pos` unchanged. `decode` never calls
it. -/
def peekWord (cfg : Config) (offset : Nat) (s : State) : CursorResult Word :=
  if s.window.len - (s.pos + offset) < 2 then .raised (truncatedAt cfg (s.pos + offset) s.window.len) s
  else .ok (s.wordAt (s.pos + offset)) s

/-- `consumed()` (R67): "the running byte count". -/
def consumed (s : State) : Nat :=
  s.pos

/-! ## The end of an activation -/

/-- `raise E(info)` (R7, R146): "An error ends the activation at once. It writes no state …, saves nothing,
changes no mode, goes to no vector"; the outcome carries the kind and its payload and nothing else. The block
is then "immediately ready for the next activation" (R147), so this is a next state. -/
def raiseError (e : DecodeError) (s : State) : Host.Outcome State Fault Refusal :=
  .next { s with out := .error e }

/-- `return v` (R7): the activation ends with outcome `ok v`. -/
def returnOk (r : InstrRecord) (s : State) : Host.Outcome State Fault Refusal :=
  .next { s with out := .ok r }

end Sys2Proof.Machine
end

