-- ==== Sys2Proof/Machine/ConditionalJump.lean ====
section
/-! DEFINITION. The eight ConditionalJump instructions (45_conditional_jump.md). The meaning of an instruction is the
record the block outputs for it; no flag is read and no target is computed (R24, R114). -/

namespace Sys2Proof.Machine

/-- The record of R113: the size is the default Word, and `length = 2`. -/
def jumpRecord (m : Mnemonic) (c : Condition) (off10 : BitVec 10) : InstrRecord where
  mnemonic := m
  format := .conditionalJump
  size := .word
  source := none
  destination := none
  condition := some c
  offsetWords := some (jumpOffset off10).1
  offsetBytes := some (jumpOffset off10).2
  length := 2

/-- `assemble_jump(w)` (R113): it "calls neither `resolve` nor `take_word` and cannot fail". -/
def assembleJump (m : Mnemonic) (c : Condition) (off10 : BitVec 10) (s : State) :
    Host.Outcome State Fault Refusal :=
  returnOk (jumpRecord m c off10) s

/-- JNE, jump if not equal / not zero (R115): `return assemble_jump(w)` with `condition = some 0`. -/
def execJne (off10 : BitVec 10) (s : State) : Host.Outcome State Fault Refusal :=
  assembleJump .jne 0 off10 s

/-- JEQ, jump if equal / zero (R116): `return assemble_jump(w)` with `condition = some 1`. -/
def execJeq (off10 : BitVec 10) (s : State) : Host.Outcome State Fault Refusal :=
  assembleJump .jeq 1 off10 s

/-- JNC, jump if no carry (R117): `return assemble_jump(w)` with `condition = some 2`. -/
def execJnc (off10 : BitVec 10) (s : State) : Host.Outcome State Fault Refusal :=
  assembleJump .jnc 2 off10 s

/-- JC, jump if carry (R118): `return assemble_jump(w)` with `condition = some 3`. -/
def execJc (off10 : BitVec 10) (s : State) : Host.Outcome State Fault Refusal :=
  assembleJump .jc 3 off10 s

/-- JN, jump if negative (R119): `return assemble_jump(w)` with `condition = some 4`. -/
def execJn (off10 : BitVec 10) (s : State) : Host.Outcome State Fault Refusal :=
  assembleJump .jn 4 off10 s

/-- JGE, jump if greater or equal, signed (R120): `return assemble_jump(w)` with `condition = some 5`. -/
def execJge (off10 : BitVec 10) (s : State) : Host.Outcome State Fault Refusal :=
  assembleJump .jge 5 off10 s

/-- JL, jump if less, signed (R121): `return assemble_jump(w)` with `condition = some 6`. -/
def execJl (off10 : BitVec 10) (s : State) : Host.Outcome State Fault Refusal :=
  assembleJump .jl 6 off10 s

/-- JMP, jump unconditionally (R122): `return assemble_jump(w)` with `condition = some 7`.
It "belongs to the ConditionalJump format and its record carries `condition = some 7`". -/
def execJmp (off10 : BitVec 10) (s : State) : Host.Outcome State Fault Refusal :=
  assembleJump .jmp 7 off10 s

end Sys2Proof.Machine
end

