-- ==== Sys2Proof/Machine/Operands.lean ====
section
/-! DEFINITION. The operand resolver: every addressing mode with the constant-generator substitutions (R75 to R84),
and the complete dispatch table (R80) in a form of its own. -/

namespace Sys2Proof.Machine

/-- An operand that names a register. -/
def regOperand (reg : Reg) (mode : AddressingMode) : Operand where
  reg := some reg
  mode := mode

/-- An operand that carries its value directly (R17). -/
def valueOperand (mode : AddressingMode) : Operand where
  reg := none
  mode := mode

/-- The increment amount: "1 for Byte size, 2 for Word size" (R79). -/
def incOf (size : OpSize) : Nat :=
  if size = .byte then 1 else 2

/-- Mode `00`, register direct (R76). -/
def resolve00 (reg : Reg) : Operand :=
  if reg = 3 then valueOperand (.constant 0) else regOperand reg .registerDirect

/-- Mode `01`: constant 1, absolute, or indexed, which is Symbolic for register 0 (R77). -/
def resolve01 (cfg : Config) (reg : Reg) (s : State) : CursorResult Operand :=
  if reg = 3 then .ok (valueOperand (.constant 1)) s
  else
    match takeWord cfg s with
    | .raised e s1 => .raised e s1
    | .ok x s1 =>
      if reg = 2 then .ok (regOperand 2 (.absolute x.toNat)) s1
      else .ok (regOperand reg (.indexed (signed 16 x.toNat))) s1

/-- Mode `10`: constants 4 and 2, or register indirect (R78). -/
def resolve10 (reg : Reg) : Operand :=
  if reg = 2 then valueOperand (.constant 4)
  else if reg = 3 then valueOperand (.constant 2)
  else regOperand reg .registerIndirect

/-- Mode `11`: immediate, constants 8 and −1, or indirect autoincrement (R79). -/
def resolve11 (cfg : Config) (reg : Reg) (size : OpSize) (s : State) : CursorResult Operand :=
  if reg = 0 then
    match takeWord cfg s with
    | .raised e s1 => .raised e s1
    | .ok x s1 => .ok (valueOperand (.immediate x.toNat)) s1
  else if reg = 2 then .ok (valueOperand (.constant 8)) s
  else if reg = 3 then .ok (valueOperand (.constant (-1))) s
  else .ok (regOperand reg (.registerIndirectAutoIncrement (incOf size))) s

/-- `resolve(mode, reg, size)` (R75): "a single dispatch over {register, mode} into a tagged-variant result". -/
def resolve (cfg : Config) (mode : AddrField) (reg : Reg) (size : OpSize) (s : State) : CursorResult Operand :=
  match mode with
  | .f00 => .ok (resolve00 reg) s
  | .f01 => resolve01 cfg reg s
  | .f10 => .ok (resolve10 reg) s
  | .f11 => resolve11 cfg reg size s

/-- The resolver at a DoubleOperand destination (R82): the same dispatch, but for the parameter
`DST_CG2_INDEXED` (D5, U4), under which register 3 with `Ad = 1` is Indexed and reads an extension word. -/
def resolveDestination (cfg : Config) (mode : AddrField) (reg : Reg) (size : OpSize) (s : State) :
    CursorResult Operand :=
  if cfg.dstCg2Indexed = true ∧ mode = .f01 ∧ reg = 3 then
    match takeWord cfg s with
    | .raised e s1 => .raised e s1
    | .ok x s1 => .ok (regOperand 3 (.indexed (signed 16 x.toNat))) s1
  else resolve cfg mode reg size s

/-- The complete dispatch table (R80), row by register and column by mode; `x` is the extension word, which a
cell of `ext` 0 does not read. How many words a cell reads is `extWords` (R53). -/
def dispatchTable (mode : AddrField) (reg : Reg) (size : OpSize) (x : Word) : Operand :=
  match reg.val, mode with
  | 0, .f00 => ⟨some 0, .registerDirect⟩
  | 0, .f01 => ⟨some 0, .indexed (signed 16 x.toNat)⟩
  | 0, .f10 => ⟨some 0, .registerIndirect⟩
  | 0, .f11 => ⟨none, .immediate x.toNat⟩
  | 1, .f00 => ⟨some 1, .registerDirect⟩
  | 1, .f01 => ⟨some 1, .indexed (signed 16 x.toNat)⟩
  | 1, .f10 => ⟨some 1, .registerIndirect⟩
  | 1, .f11 => ⟨some 1, .registerIndirectAutoIncrement (incOf size)⟩
  | 2, .f00 => ⟨some 2, .registerDirect⟩
  | 2, .f01 => ⟨some 2, .absolute x.toNat⟩
  | 2, .f10 => ⟨none, .constant 4⟩
  | 2, .f11 => ⟨none, .constant 8⟩
  | 3, .f00 => ⟨none, .constant 0⟩
  | 3, .f01 => ⟨none, .constant 1⟩
  | 3, .f10 => ⟨none, .constant 2⟩
  | 3, .f11 => ⟨none, .constant (-1)⟩
  | _, .f00 => ⟨some reg, .registerDirect⟩
  | _, .f01 => ⟨some reg, .indexed (signed 16 x.toNat)⟩
  | _, .f10 => ⟨some reg, .registerIndirect⟩
  | _, .f11 => ⟨some reg, .registerIndirectAutoIncrement (incOf size)⟩

end Sys2Proof.Machine
end

