-- ==== Sys2Proof/Machine/DoubleOperand.lean ====
section
/-! DEFINITION. The twelve DoubleOperand instructions (43_double_operand.md). The meaning of an instruction is the
record the block outputs for it: "this is a decoder, not a simulator" (R4). -/

namespace Sys2Proof.Machine

/-- The record of R85. -/
def doubleRecord (m : Mnemonic) (size : OpSize) (src dst : Operand) (length : Nat) : InstrRecord where
  mnemonic := m
  format := .doubleOperand
  size := size
  source := some src
  destination := some dst
  condition := none
  offsetWords := none
  offsetBytes := none
  length := length

/-- `assemble_double(w)` (R85): the source is resolved first, then the destination through the same cursor;
`length` is the cursor position after both. -/
def assembleDouble (cfg : Config) (m : Mnemonic) (f : DoubleFields) (s : State) :
    Host.Outcome State Fault Refusal :=
  match resolve cfg f.srcField f.srcReg f.size s with
  | .raised e s1 => raiseError e s1
  | .ok src s1 =>
    match resolveDestination cfg f.dstField f.dstReg f.size s1 with
    | .raised e s2 => raiseError e s2
    | .ok dst s2 => returnOk (doubleRecord m f.size src dst (consumed s2)) s2

/-- MOV, move (R87): `return assemble_double(w)`. -/
def execMov (f : DoubleFields) (s : State) : Host.Outcome State Fault Refusal :=
  assembleDouble Config.block .mov f s

/-- ADD, add (R88): `return assemble_double(w)`. -/
def execAdd (f : DoubleFields) (s : State) : Host.Outcome State Fault Refusal :=
  assembleDouble Config.block .add f s

/-- ADDC, add with carry (R89): `return assemble_double(w)`. -/
def execAddc (f : DoubleFields) (s : State) : Host.Outcome State Fault Refusal :=
  assembleDouble Config.block .addc f s

/-- SUBC, subtract with carry (R90): `return assemble_double(w)`. -/
def execSubc (f : DoubleFields) (s : State) : Host.Outcome State Fault Refusal :=
  assembleDouble Config.block .subc f s

/-- SUB, subtract (R91): `return assemble_double(w)`. -/
def execSub (f : DoubleFields) (s : State) : Host.Outcome State Fault Refusal :=
  assembleDouble Config.block .sub f s

/-- CMP, compare (R92): `return assemble_double(w)`. "Although the CPU does not write CMP's destination, the
decoder reports it as `destination` like any other". -/
def execCmp (f : DoubleFields) (s : State) : Host.Outcome State Fault Refusal :=
  assembleDouble Config.block .cmp f s

/-- DADD, decimal add with carry (R93): `return assemble_double(w)`. -/
def execDadd (f : DoubleFields) (s : State) : Host.Outcome State Fault Refusal :=
  assembleDouble Config.block .dadd f s

/-- BIT, bit test (R94): `return assemble_double(w)`. As for CMP, "the unwritten destination is still reported
as `destination`". -/
def execBit (f : DoubleFields) (s : State) : Host.Outcome State Fault Refusal :=
  assembleDouble Config.block .bit f s

/-- BIC, bit clear (R95): `return assemble_double(w)`. -/
def execBic (f : DoubleFields) (s : State) : Host.Outcome State Fault Refusal :=
  assembleDouble Config.block .bic f s

/-- BIS, bit set (R96): `return assemble_double(w)`. -/
def execBis (f : DoubleFields) (s : State) : Host.Outcome State Fault Refusal :=
  assembleDouble Config.block .bis f s

/-- XOR, exclusive or (R97): `return assemble_double(w)`. -/
def execXor (f : DoubleFields) (s : State) : Host.Outcome State Fault Refusal :=
  assembleDouble Config.block .xor f s

/-- AND, and (R98): `return assemble_double(w)`. -/
def execAnd (f : DoubleFields) (s : State) : Host.Outcome State Fault Refusal :=
  assembleDouble Config.block .and f s

end Sys2Proof.Machine
end

