-- ==== Sys2Proof/Machine/Flags.lean ====
section
/-! DEFINITION. Conditions. The block has no status flag, reads none and writes none (R24): there is no flag
computation. A jump's condition is a copy of three instruction bits, and this file gives its values the
document's names (R113). -/

namespace Sys2Proof.Machine

/-- The condition names "in the document's words and order" (R56, R113). -/
def conditionName (c : Condition) : String :=
  match c.val with
  | 0 => "not-equal/not-zero"
  | 1 => "equal/zero"
  | 2 => "no-carry"
  | 3 => "carry"
  | 4 => "negative"
  | 5 => "greater-or-equal"
  | 6 => "less"
  | _ => "unconditional"

end Sys2Proof.Machine
end

