-- ==== Sys2Proof/Machine/SingleOperand.lean ====
section
/-! DEFINITION. The seven SingleOperand instructions (44_single_operand.md). The meaning of an instruction is the
record the block outputs for it (R4). -/

namespace Sys2Proof.Machine

/-- The record of R100: the one operand is "reported as destination", also for PUSH and CALL
(90_conflicts.md C10). -/
def singleRecord (m : Mnemonic) (size : OpSize) (opd : Operand) (length : Nat) : InstrRecord where
  mnemonic := m
  format := .singleOperand
  size := size
  source := none
  destination := some opd
  condition := none
  offsetWords := none
  offsetBytes := none
  length := length

/-- The record of RETI (R100, R108). -/
def retiRecord : InstrRecord where
  mnemonic := .reti
  format := .singleOperand
  size := .word
  source := none
  destination := none
  condition := none
  offsetWords := none
  offsetBytes := none
  length := 2

/-- `assemble_single(w)` for an operation that takes an operand (R100). The size is the size bit's for a
size-variant operation and Word for a size-invariant one (R101); `length` is the cursor position after the
operand. -/
def assembleSingle (cfg : Config) (m : Mnemonic) (size : OpSize) (field : AddrField) (reg : Reg) (s : State) :
    Host.Outcome State Fault Refusal :=
  match resolve cfg field reg size s with
  | .raised e s1 => raiseError e s1
  | .ok opd s1 => returnOk (singleRecord m size opd (consumed s1)) s1

/-- RRC, rotate right through carry (R102): `return assemble_single(w)`, the size bit honoured (R101). -/
def execRrc (f : SizedFields) (s : State) : Host.Outcome State Fault Refusal :=
  assembleSingle Config.block .rrc f.size f.field f.reg s

/-- SWPB, swap bytes (R103): `return assemble_single(w)` with `size = Word` (R101). -/
def execSwpb (f : UnsizedFields) (s : State) : Host.Outcome State Fault Refusal :=
  assembleSingle Config.block .swpb .word f.field f.reg s

/-- RRA, rotate right arithmetically (R104): `return assemble_single(w)`, the size bit honoured (R101). -/
def execRra (f : SizedFields) (s : State) : Host.Outcome State Fault Refusal :=
  assembleSingle Config.block .rra f.size f.field f.reg s

/-- SXT, sign-extend byte to word (R105): `return assemble_single(w)` with `size = Word` (R101). -/
def execSxt (f : UnsizedFields) (s : State) : Host.Outcome State Fault Refusal :=
  assembleSingle Config.block .sxt .word f.field f.reg s

/-- PUSH, push onto the stack (R106): `return assemble_single(w)`, the size bit honoured (R101). -/
def execPush (f : SizedFields) (s : State) : Host.Outcome State Fault Refusal :=
  assembleSingle Config.block .push f.size f.field f.reg s

/-- CALL, call subroutine (R107): `return assemble_single(w)` with `size = Word` (R101). -/
def execCall (f : UnsizedFields) (s : State) : Host.Outcome State Fault Refusal :=
  assembleSingle Config.block .call .word f.field f.reg s

/-- RETI, return from interrupt (R108): no operand, no extension word; "once the first word has been read it
cannot fail". "Inside this block RETI is not privileged, does not trap and returns from nothing". -/
def execReti (s : State) : Host.Outcome State Fault Refusal :=
  returnOk retiRecord s

end Sys2Proof.Machine
end

