-- ==== Sys2Proof/Machine/Dispatch.lean ====
section
/-! DEFINITION. exec: one arm per instruction, each one direct call of its meaning. -/

namespace Sys2Proof.Machine

def exec (i : Instr) (s : State) : Host.Outcome State Fault Refusal :=
  match i with
  | .mov f => Sys2Proof.Machine.execMov f s
  | .add f => Sys2Proof.Machine.execAdd f s
  | .addc f => Sys2Proof.Machine.execAddc f s
  | .subc f => Sys2Proof.Machine.execSubc f s
  | .sub f => Sys2Proof.Machine.execSub f s
  | .cmp f => Sys2Proof.Machine.execCmp f s
  | .dadd f => Sys2Proof.Machine.execDadd f s
  | .bit f => Sys2Proof.Machine.execBit f s
  | .bic f => Sys2Proof.Machine.execBic f s
  | .bis f => Sys2Proof.Machine.execBis f s
  | .xor f => Sys2Proof.Machine.execXor f s
  | .and f => Sys2Proof.Machine.execAnd f s
  | .rrc f => Sys2Proof.Machine.execRrc f s
  | .swpb f => Sys2Proof.Machine.execSwpb f s
  | .rra f => Sys2Proof.Machine.execRra f s
  | .sxt f => Sys2Proof.Machine.execSxt f s
  | .push f => Sys2Proof.Machine.execPush f s
  | .call f => Sys2Proof.Machine.execCall f s
  | .reti => Sys2Proof.Machine.execReti s
  | .jne off10 => Sys2Proof.Machine.execJne off10 s
  | .jeq off10 => Sys2Proof.Machine.execJeq off10 s
  | .jnc off10 => Sys2Proof.Machine.execJnc off10 s
  | .jc off10 => Sys2Proof.Machine.execJc off10 s
  | .jn off10 => Sys2Proof.Machine.execJn off10 s
  | .jge off10 => Sys2Proof.Machine.execJge off10 s
  | .jl off10 => Sys2Proof.Machine.execJl off10 s
  | .jmp off10 => Sys2Proof.Machine.execJmp off10 s

end Sys2Proof.Machine
end

