-- ==== Sys2Proof/Machine/Step.lean ====
section
/-! DEFINITION. One step is one activation (R10, R72): the first word of the window is read, decoded, and its
instruction's meaning run. -/

namespace Sys2Proof.Machine

/-- `decode(buf, len)` (R72) on the window that stands in the state: `pos <- 0`, `w <- take_word()`, the
classification and lookup, and the assembly of the record, which is the instruction's meaning. Every `raise`
ends the activation with that error (R146). -/
def step (s : State) : Host.Outcome State Fault Refusal :=
  match takeWord Config.block s.begin with
  | .raised e s1 => raiseError e s1
  | .ok w s1 =>
    match decodeWord w with
    | .error e => raiseError e s1
    | .ok i => exec i s1

/-- The window that holds an instruction whose bits are `w` and zeros after it, as `decodeTableWord` lays it
out. A step reads its first word at window address 0 whatever `pos` holds, so nothing else is set. -/
def State.withFetchWord (s : State) (nbits w : Nat) : State :=
  s.present (tableBytes nbits w)

end Sys2Proof.Machine
end

