-- ==== Sys2Proof/Machine/Render.lean ====
section
/-! DEFINITION. The text formatter (46_text_formatter.md), an auxiliary pure function on Instruction records: "Nothing
in the decoder depends on it". -/

namespace Sys2Proof

/-- The spelling of a mnemonic (R29). -/
def Mnemonic.text : Mnemonic → List Char
  | .mov => ['M', 'O', 'V']
  | .add => ['A', 'D', 'D']
  | .addc => ['A', 'D', 'D', 'C']
  | .subc => ['S', 'U', 'B', 'C']
  | .sub => ['S', 'U', 'B']
  | .cmp => ['C', 'M', 'P']
  | .dadd => ['D', 'A', 'D', 'D']
  | .bit => ['B', 'I', 'T']
  | .bic => ['B', 'I', 'C']
  | .bis => ['B', 'I', 'S']
  | .xor => ['X', 'O', 'R']
  | .and => ['A', 'N', 'D']
  | .rrc => ['R', 'R', 'C']
  | .swpb => ['S', 'W', 'P', 'B']
  | .rra => ['R', 'R', 'A']
  | .sxt => ['S', 'X', 'T']
  | .push => ['P', 'U', 'S', 'H']
  | .call => ['C', 'A', 'L', 'L']
  | .reti => ['R', 'E', 'T', 'I']
  | .jne => ['J', 'N', 'E']
  | .jeq => ['J', 'E', 'Q']
  | .jnc => ['J', 'N', 'C']
  | .jc => ['J', 'C']
  | .jn => ['J', 'N']
  | .jge => ['J', 'G', 'E']
  | .jl => ['J', 'L']
  | .jmp => ['J', 'M', 'P']

namespace Machine

/-- `dec(n)`: "the shortest decimal numeral of the integer `n`: digits `0`–`9`, no leading zeros, a leading `-`
for negative values, no `+` for non-negative ones" (R127), in the base of `RENDER_BASE` (R129, D17), which is 10
for the block. How a numeral in another base looks the spec does not say: in bases up to 16 the digits go on with
the lower-case letters from `a`, with no prefix. [DESIGN CHOICE, unsafe: notes/assumptions/19.md] -/
def numeral (cfg : Config) (n : Int) : List Char :=
  if n < 0 then '-' :: Nat.toDigits cfg.renderBase n.natAbs else Nat.toDigits cfg.renderBase n.natAbs

/-- `REG_NAME(n)` is the letter `R` followed by the decimal number (R128). -/
def regName (n : Reg) : List Char :=
  'R' :: Nat.toDigits 10 n.val

/-- The name of an operand's register; an operand that names none has no register text (R127). -/
def regText (o : Operand) : List Char :=
  match o.reg with
  | some n => regName n
  | none => []

/-- The operand templates (R127). `inc` is not printed, nor is the register of an Absolute operand (R131). -/
def renderOperand (cfg : Config) (o : Operand) : List Char :=
  match o.mode with
  | .registerDirect => regText o
  | .indexed off => numeral cfg off ++ ['('] ++ regText o ++ [')']
  | .registerIndirect => '@' :: regText o
  | .registerIndirectAutoIncrement _ => '@' :: regText o ++ ['+']
  | .immediate val => '#' :: numeral cfg val
  | .absolute addr => '&' :: numeral cfg addr
  | .constant c => numeral cfg c

/-- "Size suffix `.B` appears only for Byte-size DoubleOperand/SingleOperand instructions" (R126). -/
def sizeSuffix (size : OpSize) : List Char :=
  if size = .byte then ['.', 'B'] else []

/-- `render_jump` (R130): the mnemonic, ` $`, and the signed byte offset. -/
def renderJump (cfg : Config) (r : InstrRecord) : List Char :=
  r.mnemonic.text ++ [' ', '$'] ++ numeral cfg (r.offsetBytes.getD 0)

/-- `render` (R126) as a list of characters. -/
def renderChars (cfg : Config) (r : InstrRecord) : List Char :=
  if r.format = .conditionalJump then renderJump cfg r
  else
    let head := r.mnemonic.text ++ sizeSuffix r.size
    match r.source, r.destination with
    | none, none => head
    | some o, none => head ++ [' '] ++ renderOperand cfg o
    | none, some o => head ++ [' '] ++ renderOperand cfg o
    | some o, some p => head ++ [' '] ++ renderOperand cfg o ++ [',', ' '] ++ renderOperand cfg p

/-- `render : Instruction -> string` (R125, R126), total on every record. -/
def render (r : InstrRecord) : String :=
  String.ofList (renderChars Config.block r)

end Machine

end Sys2Proof
end

