-- ==== Sys2Proof/Machine/Binding.lean ====
section
/-! DEFINITION. The block seen from outside: the function `decode : (buf, len) -> ok Instruction | error DecodeError`
(R10), and the hardware binding of the input (R11) and the output (R12, R149). -/

namespace Sys2Proof.Machine

/-- The outcome output of a step's answer. -/
def outcomeOf : Host.Outcome State Fault Refusal → Output
  | .next s => s.out
  | .fault _ => .pending
  | .refused _ => .pending

/-- `decode(buf, len)` as a function of the window alone (R10): one activation of the block on that window. -/
def decodeWindow (bs : List Byte) : Output :=
  outcomeOf (step (State.reset.present bs))

/-- The hardware binding of the input: six byte lanes and a count of valid lanes, "`in_len = 6` (or any larger
number)" when all six are valid (R11, D2). -/
def State.presentLanes (s : State) (inByte : Vector Byte 6) (inLen : Nat) : State :=
  s.present (inByte.toList.take inLen)

/-- The 2-bit `status` output (R149); `none` before the first activation has completed (R157). Between activations it
and the outputs below keep showing the last outcome, where the spec leaves them unspecified (U7).
[DESIGN CHOICE, unsafe: notes/assumptions/18.md] -/
def Output.status : Output → Option (BitVec 2)
  | .pending => none
  | .ok _ => some 0
  | .error (.truncatedInput _ _) => some 1
  | .error (.unknownOpcode _) => some 2
  | .error (.reservedEncoding _) => some 3

/-- The record output, meaningful only when `status = Ok` (R12). -/
def Output.record : Output → Option InstrRecord
  | .ok r => some r
  | .pending => none
  | .error _ => none

/-- `err_needed` (R149): meaningful only under `TruncatedInput`; "0 to 7 suffices", three bits. -/
def Output.errNeeded : Output → Option (BitVec 3)
  | .error (.truncatedInput needed _) => some (BitVec.ofNat 3 needed)
  | .error (.unknownOpcode _) => none
  | .error (.reservedEncoding _) => none
  | .ok _ => none
  | .pending => none

/-- `err_available` (R149): meaningful only under `TruncatedInput`. -/
def Output.errAvailable : Output → Option (BitVec 3)
  | .error (.truncatedInput _ available) => some (BitVec.ofNat 3 available)
  | .error (.unknownOpcode _) => none
  | .error (.reservedEncoding _) => none
  | .ok _ => none
  | .pending => none

/-- `err_raw_word` (R149): meaningful under `UnknownOpcode` and `ReservedEncoding`. -/
def Output.errRawWord : Output → Option Word
  | .error (.unknownOpcode w) => some w
  | .error (.reservedEncoding w) => some w
  | .error (.truncatedInput _ _) => none
  | .ok _ => none
  | .pending => none

end Sys2Proof.Machine
end

