-- ==== Sys2Proof/Safety.lean ====
section
/-! DEFINITION. The invariant that every activation keeps: the window's form, the cursor's legal positions, and an
outcome that is one the rules let the block output. -/

namespace Sys2Proof.Machine

/-- A decode error the rules let the block output, for the spec's own payload rule: `TruncatedInput` with
`needed = 2` and `available` 0 or 1 (R141), `UnknownOpcode` of an unknown word (R142), never
`ReservedEncoding` (R143). -/
def errorOk : DecodeError → Bool
  | .truncatedInput needed available => needed = 2 && available ≤ 1
  | .unknownOpcode w => (classify w).isNone
  | .reservedEncoding _ => false

/-- An outcome the rules let the block output. -/
def Output.wf : Output → Bool
  | .pending => true
  | .ok r => r.wf
  | .error e => errorOk e

/-- The values of `pos` "are 0, 2, 4 and 6 only" (R22, R69). -/
def posOk (pos : Nat) : Bool :=
  pos = 0 || pos = 2 || pos = 4 || pos = 6

/-- The invariant. -/
def State.Inv (s : State) : Bool :=
  s.window.wf && posOk s.pos && s.out.wf

/-- What every activation ends in: a next state whose outcome is `ok` or one of the three errors (R140, R166). -/
def Ends (o : Host.Outcome State Fault Refusal) : Prop :=
  ∃ t, o = .next t ∧ t.out ≠ .pending

end Sys2Proof.Machine
end

