-- ==== Sys2Proof/Certificates/Slice0/Obligations.lean ====
section
/-! DEFINITION. The statements about the model, for the provers. A rule in a docstring is the rule of spec/ a statement
formalises. -/

namespace Sys2Proof.Claims

open Sys2Proof.Machine

/-! ## What the statements say, in the rules' own terms -/

/-- The first word of a window of at least two bytes. -/
def firstWord (bs : List Byte) : Word :=
  wordOfBytes (bs[0]?.getD 0) (bs[1]?.getD 0)

/-- The word at byte offset `a` of a sequence of bytes, low byte first (R33). -/
def wordAtOffset (bs : List Byte) (a : Nat) : Word :=
  wordOfBytes (bs[a]?.getD 0) (bs[a + 1]?.getD 0)

/-- `DBL_MNEMONIC` (R54). -/
def dblMnemonic (nibble : Nat) : Mnemonic :=
  [Mnemonic.mov, .add, .addc, .subc, .sub, .cmp, .dadd, .bit, .bic, .bis, .xor, .and].getD (nibble - 4) .mov

/-- `SGL_MNEMONIC` (R55). -/
def sglMnemonic (op : Nat) : Mnemonic :=
  [Mnemonic.rrc, .swpb, .rra, .sxt, .push, .call, .reti].getD op .reti

/-- `JMP_MNEMONIC` (R56). -/
def jmpMnemonic (c : Nat) : Mnemonic :=
  [Mnemonic.jne, .jeq, .jnc, .jc, .jn, .jge, .jl, .jmp].getD c .jne

/-- `offset_words` as the pseudocode of R112 writes it. -/
def offsetWords (off10 : Nat) : Int :=
  if 512 ≤ off10 then (off10 : Int) - 1024 else off10

/-- The number of words that may stand between the first word and the last operand's extension word: those of
the source operand of a DoubleOperand word, none otherwise (R52). -/
def sourceExt (w : Word) : Nat :=
  if classify w = some .doubleOperand then extWords (AddrField.ofNumber (slice w 5 4)) (regField w 8) else 0

/-- Two words that agree on every bit the decoder consults for this mnemonic (R58). -/
def SameConsulted (m : Mnemonic) (v w : Word) : Prop :=
  match m with
  | .reti => slice v 15 7 = slice w 15 7
  | .swpb | .sxt | .call => slice v 15 7 = slice w 15 7 ∧ slice v 5 0 = slice w 5 0
  | _ => v = w

/-- Where the source operand of a DoubleOperand instruction leaves the cursor. -/
def afterSource (f : DoubleFields) (s : State) : Nat :=
  s.pos + 2 * extWords f.srcField f.srcReg

/-- Where both operands of a DoubleOperand instruction leave the cursor. -/
def afterBoth (f : DoubleFields) (s : State) : Nat :=
  afterSource f s + 2 * extWords f.dstField f.dstReg

/-- The state a DoubleOperand instruction of mnemonic `m` leaves (R85): the cursor past both operands' extension
words, the record of R85 as the outcome, its operands the cells of the table of R80, the window as before. -/
def doubleDone (m : Mnemonic) (f : DoubleFields) (s : State) : State where
  window := s.window
  pos := afterBoth f s
  out := .ok
    { mnemonic := m
      format := .doubleOperand
      size := f.size
      source := some (dispatchTable f.srcField f.srcReg f.size (s.wordAt s.pos))
      destination := some (dispatchTable f.dstField f.dstReg f.size (s.wordAt (afterSource f s)))
      condition := none
      offsetWords := none
      offsetBytes := none
      length := afterBoth f s }

/-- The state a SingleOperand instruction that takes an operand leaves (R100). -/
def singleDone (m : Mnemonic) (size : OpSize) (field : AddrField) (reg : Reg) (s : State) : State where
  window := s.window
  pos := s.pos + 2 * extWords field reg
  out := .ok
    { mnemonic := m
      format := .singleOperand
      size := size
      source := none
      destination := some (dispatchTable field reg size (s.wordAt s.pos))
      condition := none
      offsetWords := none
      offsetBytes := none
      length := s.pos + 2 * extWords field reg }

/-- The state RETI leaves (R108). -/
def retiDone (s : State) : State where
  window := s.window
  pos := s.pos
  out := .ok
    { mnemonic := .reti
      format := .singleOperand
      size := .word
      source := none
      destination := none
      condition := none
      offsetWords := none
      offsetBytes := none
      length := 2 }

/-- The state a jump leaves (R113). -/
def jumpDone (m : Mnemonic) (c : Condition) (off10 : BitVec 10) (s : State) : State where
  window := s.window
  pos := s.pos
  out := .ok
    { mnemonic := m
      format := .conditionalJump
      size := .word
      source := none
      destination := none
      condition := some c
      offsetWords := some (offsetWords off10.toNat)
      offsetBytes := some (2 * offsetWords off10.toNat)
      length := 2 }

/-- The state `TruncatedInput` leaves when the read at cursor position `p` finds fewer than two bytes (R141,
R146): the cursor stays at `p`, the window as before. -/
def truncatedAtCursor (p : Nat) (s : State) : State where
  window := s.window
  pos := p
  out := .error (.truncatedInput 2 (s.window.len - p))

/-! ### The text of a record, written out apart from the formatter -/

/-- The spellings of R29, one by one. -/
def spelling : Mnemonic → String
  | .mov => "MOV"
  | .add => "ADD"
  | .addc => "ADDC"
  | .subc => "SUBC"
  | .sub => "SUB"
  | .cmp => "CMP"
  | .dadd => "DADD"
  | .bit => "BIT"
  | .bic => "BIC"
  | .bis => "BIS"
  | .xor => "XOR"
  | .and => "AND"
  | .rrc => "RRC"
  | .swpb => "SWPB"
  | .rra => "RRA"
  | .sxt => "SXT"
  | .push => "PUSH"
  | .call => "CALL"
  | .reti => "RETI"
  | .jne => "JNE"
  | .jeq => "JEQ"
  | .jnc => "JNC"
  | .jc => "JC"
  | .jn => "JN"
  | .jge => "JGE"
  | .jl => "JL"
  | .jmp => "JMP"

/-- The register names of R128, one by one. -/
def registerName (n : Reg) : List Char :=
  (["R0", "R1", "R2", "R3", "R4", "R5", "R6", "R7", "R8", "R9", "R10", "R11", "R12", "R13", "R14", "R15"].getD
    n.val "").toList

/-- The value of a sequence of decimal digits, the leading one first. -/
def decimalValue (digits : List Char) : Nat :=
  digits.foldl (fun v c => 10 * v + (c.toNat - 48)) 0

/-- The shortest decimal numeral of a natural number: one digit or more, each `0` to `9`, of that value, no leading
zero (R127). -/
def IsDigitsOf (n : Nat) (text : List Char) : Prop :=
  text ≠ [] ∧ (∀ c ∈ text, 48 ≤ c.toNat ∧ c.toNat ≤ 57) ∧ decimalValue text = n ∧
    (text.head? = some '0' → text = ['0'])

/-- `dec(z)` (R127): the digits of `z`, or `-` and the digits of its negation; never a plus sign. -/
def IsDecimal (z : Int) (text : List Char) : Prop :=
  (0 ≤ z ∧ IsDigitsOf z.natAbs text) ∨ (z < 0 ∧ ∃ digits, text = '-' :: digits ∧ IsDigitsOf z.natAbs digits)

/-- The operand templates of R127, one for each addressing mode. -/
def IsOperandText (o : Operand) (text : List Char) : Prop :=
  match o.mode with
  | .registerDirect => ∃ n, o.reg = some n ∧ text = registerName n
  | .indexed off => ∃ n d, o.reg = some n ∧ IsDecimal off d ∧ text = d ++ ['('] ++ registerName n ++ [')']
  | .registerIndirect => ∃ n, o.reg = some n ∧ text = ['@'] ++ registerName n
  | .registerIndirectAutoIncrement _ => ∃ n, o.reg = some n ∧ text = ['@'] ++ registerName n ++ ['+']
  | .immediate val => ∃ d, IsDecimal val d ∧ text = ['#'] ++ d
  | .absolute addr => ∃ d, IsDecimal addr d ∧ text = ['&'] ++ d
  | .constant c => IsDecimal c text

/-- A record in the formatter's domain (R125): one that `decode` outputs, or any that meets R19, hand-built ones among
them, whose operands name a register as R17 says. -/
def InFormatterDomain (r : InstrRecord) : Prop :=
  (∃ bs, decodeWindow bs = .ok r) ∨
    (r.formatOk = true ∧ r.presenceOk = true ∧ r.sizeOk = true ∧ r.offsetsOk = true ∧
      (∀ o, r.source = some o → o.regOk = true) ∧ ∀ o, r.destination = some o → o.regOk = true)

end Sys2Proof.Claims

open Sys2Proof Sys2Proof.Machine Sys2Proof.Claims

/-! ## The word cursor and the window -/

/-- `take_word()` (R65): with at least two bytes left it answers `buf[pos] + 256 * buf[pos+1]` and adds 2 to
`pos`, changing nothing else; with fewer it raises `TruncatedInput(2, len - pos)` and `pos` is unchanged. -/
def Obligations.TakeWordReadsLittleEndianAndAdvances : Prop :=
  ∀ s : State,
    (2 ≤ s.window.len - s.pos → ∃ lo hi v, s.window.byte s.pos = some lo ∧ s.window.byte (s.pos + 1) = some hi ∧
      takeWord Config.block s = .ok v { s with pos := s.pos + 2 } ∧ v.toNat = lo.toNat + 256 * hi.toNat) ∧
    (s.window.len - s.pos < 2 →
      takeWord Config.block s = .raised (.truncatedInput 2 (s.window.len - s.pos)) s)

/-- `peek_word(offset)` (R66) reads the word `offset` bytes after the cursor under the same test and changes
nothing, and `consumed()` (R67) is `pos`. That `offset` counts bytes from `pos` is the spec's own decision
D16. -/
def Obligations.PeekWordReadsWithoutAdvancing : Prop :=
  ∀ (s : State) (offset : Nat), consumed s = s.pos ∧
    (2 ≤ s.window.len - (s.pos + offset) → ∃ v, s.window.word (s.pos + offset) = some v ∧
      peekWord Config.block offset s = .ok v s) ∧
    (s.window.len - (s.pos + offset) < 2 →
      peekWord Config.block offset s = .raised (.truncatedInput 2 (s.window.len - (s.pos + offset))) s)

/-- A presented window holds exactly the bytes presented, at addresses from 0, and nothing at or beyond `len`
(R11, R31). That the window is also in canonical form is the model's own choice of representation
(notes/assumptions/1.md, DESIGN CHOICE). -/
def Obligations.PresentedWindowHoldsItsBytes : Prop :=
  ∀ (s : State) (bs : List Byte) (a : Nat),
    (s.present bs).window.byte a = bs[a]? ∧ (s.present bs).window.len = bs.length ∧
      (s.present bs).window.toBytes = bs ∧ (s.present bs).window.wf = true

/-- Windows in canonical form with the same length and bytes are the same data (the model's own form of the
window, notes/assumptions/1.md). -/
def Obligations.CanonicalWindowsWithEqualBytesAreEqual : Prop :=
  ∀ m n : Memory, m.wf = true → n.wf = true → m.len = n.len → (∀ a, m.byte a = n.byte a) → m = n

/-! ## Encoding -/

/-- Words written out bit by bit from the encodings of R48, R49 and R50 decode to the instructions they stand
for, one family at a time; and one word of each unknown range does not decode. Which mnemonic stands behind a
nibble, a prefix or a condition is what the maps R54 to R56 say, values the spec supplies from general knowledge but
for MOV and JNE (D6, D14, D15; notes/assumptions/8.md, PRESUMED). -/
def Obligations.WordsWrittenFromTheFormatsDecode : Prop :=
  decodeWord 0b0100010100000110 = .ok (.mov ⟨5, .f00, .word, .f00, 6⟩) ∧
  decodeWord 0b1101000011010000 = .ok (.bis ⟨0, .f01, .byte, .f01, 0⟩) ∧
  decodeWord 0b1111111111111111 = .ok (.and ⟨15, .f01, .byte, .f11, 15⟩) ∧
  decodeWord 0b0001000001100110 = .ok (.rrc ⟨.byte, .f10, 6⟩) ∧
  decodeWord 0b0001001011110101 = .ok (.call ⟨.f11, 5⟩) ∧
  decodeWord 0b0001001101111111 = .ok .reti ∧
  decodeWord 0b0010001111111001 = .ok (.jne 0b1111111001) ∧
  decodeWord 0b0011111111111111 = .ok (.jmp 0b1111111111) ∧
  decodeWord 0b0000111111111111 = .error (.unknownOpcode 0x0FFF) ∧
  decodeWord 0b0001001110000000 = .error (.unknownOpcode 0x1380)

/-- Decoding the word of a well-formed instruction gives the instruction back, whatever its operand fields. -/
def Obligations.DecodeOfEncodeIsTheInstruction : Prop :=
  ∀ i : Instr, i.wf = true → decodeWord (encode i) = .ok i

/-- Every word that decodes gives a well-formed instruction, whose own word agrees with it on every bit the
decoder consults (R58). -/
def Obligations.EncodeOfDecodeAgreesOnConsultedBits : Prop :=
  ∀ (w : Word) (i : Instr), decodeWord w = .ok i → i.wf = true ∧ SameConsulted i.mnemonic (encode i) w

/-- Which two first words give the same record (R58): two that agree on every consulted bit, so all 128 RETI
words, and two SWPB, SXT or CALL words that differ in bit 6 only, and no others: "No other bit of any first
word is ignored". That SWPB, SXT and CALL ignore bit 6 and RRC, RRA and PUSH do not is the spec's decision D7 (U5;
notes/assumptions/9.md, DESIGN CHOICE). -/
def Obligations.AliasedFirstWordsAreThoseOfIgnoredBits : Prop :=
  ∀ (w v : Word) (rest : List Byte) (r : InstrRecord), decodeWindow (bytesOfWord w ++ rest) = .ok r →
    (decodeWindow (bytesOfWord v ++ rest) = .ok r ↔ SameConsulted r.mnemonic v w)

/-- A word decodes to an instruction of a mnemonic exactly when its fixed field is the one the opcode table
gives that mnemonic's row (R54, R55, R56). The map itself, but for MOV and JNE, is what the spec supplies from
general knowledge (GK2, GK3, GK5, GK6; D6, D14, D15; notes/assumptions/8.md, PRESUMED). -/
def Obligations.OpcodeTableFixesTheMnemonic : Prop :=
  ∀ (w : Word) (m : Mnemonic), (∃ i, decodeWord w = .ok i ∧ i.mnemonic = m) ↔ m.matchesWord w = true

/-- "Mnemonic lookup cannot fail after classification" (R73), and it stays in the format. -/
def Obligations.LookupNeverFailsAfterClassification : Prop :=
  ∀ (w : Word) (fmt : Format), classify w = some fmt → ∃ i, lookup fmt w = some i ∧ i.mnemonic.format = fmt

/-- The classes are the ranges of R47 and R57, exhaustive and mutually exclusive (R71, R162). -/
def Obligations.ClassifierSplitsTheWordsIntoRanges : Prop :=
  ∀ w : Word,
    (classify w = some .conditionalJump ↔ 0x2000 ≤ w.toNat ∧ w.toNat ≤ 0x3FFF) ∧
    (classify w = some .doubleOperand ↔ 0x4000 ≤ w.toNat) ∧
    (classify w = some .singleOperand ↔ 0x1000 ≤ w.toNat ∧ w.toNat ≤ 0x137F) ∧
    (classify w = none ↔ w.toNat ≤ 0x0FFF ∨ (0x1380 ≤ w.toNat ∧ w.toNat ≤ 0x1FFF))

/-- The counts of R63 over all 65536 first words. That there are seven SingleOperand prefixes, in nibble `0x1`, on
which 896 and 7296 rest, is the spec's decision (D6, D26; GK3; notes/assumptions/8.md, PRESUMED). -/
def Obligations.FirstWordCountsByClass : Prop :=
  ((List.range 65536).filter (fun n => classify (BitVec.ofNat 16 n) = some .doubleOperand)).length = 49152 ∧
  ((List.range 65536).filter (fun n => classify (BitVec.ofNat 16 n) = some .conditionalJump)).length = 8192 ∧
  ((List.range 65536).filter (fun n => classify (BitVec.ofNat 16 n) = some .singleOperand)).length = 896 ∧
  ((List.range 65536).filter (fun n => classify (BitVec.ofNat 16 n) = none)).length = 7296

/-! ## The operand resolver -/

/-- `resolve` is the table of R80 at every register, addressing field and size: the cell's operand, with one
word read where the cell's `ext` is 1 (R53, R81), and `TruncatedInput` where that word is missing. -/
def Obligations.ResolverFollowsTheDispatchTable : Prop :=
  ∀ (mode : AddrField) (reg : Reg) (size : OpSize) (s : State),
    (extWords mode reg = 0 → ∀ x, resolve Config.block mode reg size s = .ok (dispatchTable mode reg size x) s) ∧
    (extWords mode reg = 1 → s.pos + 2 ≤ s.window.len →
      resolve Config.block mode reg size s =
        .ok (dispatchTable mode reg size (s.wordAt s.pos)) { s with pos := s.pos + 2 }) ∧
    (extWords mode reg = 1 → s.window.len < s.pos + 2 →
      resolve Config.block mode reg size s = .raised (.truncatedInput 2 (s.window.len - s.pos)) s)

/-- A resolved operand consumed an extension word exactly when its field and register are those of R81, and
exactly when its mode is Indexed, Absolute or Immediate; then the cursor is 2 further, and otherwise where it
was. That field `01` with register 3 reads no word is the spec's decision D4 (C1; notes/assumptions/12.md, DESIGN
CHOICE). -/
def Obligations.OperandConsumesAWordExactlyByItsMode : Prop :=
  ∀ (mode : AddrField) (reg : Reg) (size : OpSize) (s t : State) (o : Operand),
    resolve Config.block mode reg size s = .ok o t →
      (o.consumed = true ↔ (mode = .f01 ∧ reg ≠ 3) ∨ (mode = .f11 ∧ reg = 0)) ∧
      t = { s with pos := s.pos + (if o.consumed = true then 2 else 0) }

/-- How an extension word is read (R51): the signed 16-bit value for Indexed (Symbolic among them), the unsigned one
for Absolute and Immediate, with no scaling, whatever the register and the size. That Byte size does not shorten an
Immediate is the spec's decision D22 (notes/assumptions/17.md, DESIGN CHOICE). -/
def Obligations.ExtensionWordIsReadAsItsModeSays : Prop :=
  ∀ (mode : AddrField) (reg : Reg) (size : OpSize) (s t : State) (o : Operand),
    resolve Config.block mode reg size s = .ok o t →
      (∀ off, o.mode = .indexed off → off = (s.wordAt s.pos).toInt ∧ -32768 ≤ off ∧ off ≤ 32767) ∧
      (∀ addr, o.mode = .absolute addr → addr = (s.wordAt s.pos).toNat ∧ addr ≤ 65535) ∧
      (∀ val, o.mode = .immediate val → val = (s.wordAt s.pos).toNat ∧ val ≤ 65535)

/-- Error propagation (R84), under every parameter value. Where an operand needs an extension word and `take_word`
raises, `resolve` raises the same error, and so does the resolver of a destination, also where the parameter U4 makes
register 3 need one; conversely every error `resolve` raises is one `take_word` raised. Whoever called it ends with
that error at once and with no operand; so does a DoubleOperand instruction whose source resolved and whose
destination raises, the resolved source discarded. -/
def Obligations.ResolverErrorsPropagateAtOnce : Prop :=
  ∀ (cfg : Config) (mode : AddrField) (reg : Reg) (size : OpSize) (s s' : State) (e : DecodeError),
    (extWords mode reg = 1 → takeWord cfg s = .raised e s' →
      resolve cfg mode reg size s = .raised e s' ∧ resolveDestination cfg mode reg size s = .raised e s') ∧
    (cfg.dstCg2Indexed = true → takeWord cfg s = .raised e s' →
      resolveDestination cfg .f01 3 size s = .raised e s') ∧
    (resolve cfg mode reg size s = .raised e s' → takeWord cfg s = .raised e s' ∧
      (∀ m, assembleSingle cfg m size mode reg s = .next { s with out := .error e }) ∧
      ∀ m dstField dstReg, assembleDouble cfg m ⟨reg, dstField, size, mode, dstReg⟩ s =
        .next { s with out := .error e }) ∧
    ∀ (srcField : AddrField) (srcReg : Reg) (src : Operand) (s0 : State),
      resolve cfg srcField srcReg size s0 = .ok src s → resolveDestination cfg mode reg size s = .raised e s' →
        takeWord cfg s = .raised e s' ∧
        ∀ m, assembleDouble cfg m ⟨srcReg, mode, size, srcField, reg⟩ s0 = .next { s with out := .error e }

/-- `size` is read only in the last arm of R79 (R83): for every other field and register the result is the
same for both sizes. -/
def Obligations.SizeChoosesOnlyTheIncrement : Prop :=
  ∀ (mode : AddrField) (reg : Reg) (s : State),
    (¬ (mode = .f11 ∧ reg ≠ 0 ∧ reg ≠ 2 ∧ reg ≠ 3) →
      resolve Config.block mode reg .byte s = resolve Config.block mode reg .word s) ∧
    (mode = .f11 → reg ≠ 0 → reg ≠ 2 → reg ≠ 3 →
      resolve Config.block mode reg .byte s = .ok ⟨some reg, .registerIndirectAutoIncrement 1⟩ s ∧
      resolve Config.block mode reg .word s = .ok ⟨some reg, .registerIndirectAutoIncrement 2⟩ s)

/-- A DoubleOperand destination is one of the five shapes of R82, by the destination register and `Ad`, and
never another. -/
def Obligations.DestinationIsOneOfTheFiveShapes : Prop :=
  ∀ (bs : List Byte) (r : InstrRecord), decodeWindow bs = .ok r → r.format = .doubleOperand →
    ∃ o, r.destination = some o ∧
      let dst := regField (firstWord bs) 0
      (slice (firstWord bs) 7 7 = 0 ∧ dst ≠ 3 ∧ o = ⟨some dst, .registerDirect⟩) ∨
      (slice (firstWord bs) 7 7 = 0 ∧ dst = 3 ∧ o = ⟨none, .constant 0⟩) ∨
      (slice (firstWord bs) 7 7 = 1 ∧ dst ≠ 2 ∧ dst ≠ 3 ∧ ∃ off, o = ⟨some dst, .indexed off⟩) ∨
      (slice (firstWord bs) 7 7 = 1 ∧ dst = 2 ∧ ∃ addr, o = ⟨some 2, .absolute addr⟩) ∨
      (slice (firstWord bs) 7 7 = 1 ∧ dst = 3 ∧ o = ⟨none, .constant 1⟩)

/-- Constant-generator substitution (R163): a source or single-operand register field of 3 gives
Constant(0/1/2/−1), of 2 with fields `10` and `11` gives Constant(4) and Constant(8), whatever bytes follow the
first word, and it is no reason for `TruncatedInput`: a SingleOperand instruction of this kind decodes from its
first word alone, with length 2. -/
def Obligations.ConstantGeneratorsIgnoreTheBytesAfter : Prop :=
  ∀ (w : Word) (c : Int) (field reg : Nat),
    (field, reg, c) ∈ [(0, 3, 0), (1, 3, 1), (2, 3, 2), (3, 3, -1), (2, 2, 4), (3, 2, 8)] →
    slice w 5 4 = field →
    (0x4000 ≤ w.toNat → slice w 11 8 = reg → ∀ (rest : List Byte) (r : InstrRecord),
      decodeWindow (bytesOfWord w ++ rest) = .ok r → r.source = some ⟨none, .constant c⟩) ∧
    (0x4000 ≤ w.toNat → slice w 11 8 = reg → slice w 7 7 = 0 → ∀ rest : List Byte,
      ∃ r, decodeWindow (bytesOfWord w ++ rest) = .ok r ∧ r.source = some ⟨none, .constant c⟩ ∧ r.length = 2) ∧
    (0x1000 ≤ w.toNat → w.toNat < 0x1300 → slice w 3 0 = reg → ∀ rest : List Byte,
      ∃ r, decodeWindow (bytesOfWord w ++ rest) = .ok r ∧ r.destination = some ⟨none, .constant c⟩ ∧
        r.length = 2)

/-- The parameter `DST_CG2_INDEXED` (U4) touches destination register 3 with `Ad = 1` only: there the operand
becomes Indexed on register 3 and one word is read. Every other DoubleOperand instruction, and every SingleOperand
instruction, register 3 with field `01` among them, is the same for both values (a jump and RETI take no
parameter). The point is notes/assumptions/5.md. -/
def Obligations.DestinationParameterTouchesRegister3Only : Prop :=
  ∀ (cfg : Config) (m : Mnemonic) (f : DoubleFields) (s : State),
    (¬ (f.dstField = .f01 ∧ f.dstReg = 3) →
      assembleDouble { cfg with dstCg2Indexed := true } m f s =
        assembleDouble { cfg with dstCg2Indexed := false } m f s) ∧
    (∀ (size : OpSize) (field : AddrField) (reg : Reg),
      assembleSingle { cfg with dstCg2Indexed := true } m size field reg s =
        assembleSingle { cfg with dstCg2Indexed := false } m size field reg s) ∧
    (s.pos + 2 ≤ s.window.len →
      resolveDestination { cfg with dstCg2Indexed := true } .f01 3 f.size s =
        .ok ⟨some 3, .indexed (signed 16 (s.wordAt s.pos).toNat)⟩ { s with pos := s.pos + 2 } ∧
      resolveDestination { cfg with dstCg2Indexed := false } .f01 3 f.size s = .ok ⟨none, .constant 1⟩ s)

/-- The parameter `TRUNC_PAYLOAD` (U8) changes no record: an instruction completes with the same next state
under both payload rules. -/
def Obligations.PayloadParameterChangesNoRecord : Prop :=
  ∀ (cfg : Config) (m : Mnemonic) (f : DoubleFields) (s t : State) (r : InstrRecord), t.out = .ok r →
    (assembleDouble { cfg with truncPayload := .atCursor } m f s = .next t ↔
      assembleDouble { cfg with truncPayload := .cumulative } m f s = .next t) ∧
    (assembleSingle { cfg with truncPayload := .atCursor } m f.size f.srcField f.srcReg s = .next t ↔
      assembleSingle { cfg with truncPayload := .cumulative } m f.size f.srcField f.srcReg s = .next t)

/-! ## The instructions: where they complete, what they answer, and their frame -/

/-- The twelve DoubleOperand instructions (R85 to R98) complete wherever the window holds the extension words
their operands need, and the next state is the whole of `doubleDone`: the record, the cursor, the window
unchanged. -/
def Obligations.DoubleOperandInstructionsComplete : Prop :=
  ∀ (f : DoubleFields) (s : State),
    (extWords f.srcField f.srcReg = 1 → s.pos + 2 ≤ s.window.len) →
    (extWords f.dstField f.dstReg = 1 → afterSource f s + 2 ≤ s.window.len) →
    exec (.mov f) s = .next (doubleDone .mov f s) ∧
    exec (.add f) s = .next (doubleDone .add f s) ∧
    exec (.addc f) s = .next (doubleDone .addc f s) ∧
    exec (.subc f) s = .next (doubleDone .subc f s) ∧
    exec (.sub f) s = .next (doubleDone .sub f s) ∧
    exec (.cmp f) s = .next (doubleDone .cmp f s) ∧
    exec (.dadd f) s = .next (doubleDone .dadd f s) ∧
    exec (.bit f) s = .next (doubleDone .bit f s) ∧
    exec (.bic f) s = .next (doubleDone .bic f s) ∧
    exec (.bis f) s = .next (doubleDone .bis f s) ∧
    exec (.xor f) s = .next (doubleDone .xor f s) ∧
    exec (.and f) s = .next (doubleDone .and f s)

/-- Where a DoubleOperand instruction ends in `TruncatedInput` (R99, R141): at the source's extension word, or
at the destination's after the source was resolved; no record is exposed. -/
def Obligations.DoubleOperandInstructionsTruncate : Prop :=
  ∀ (i : DoubleFields → Instr) (f : DoubleFields) (s : State),
    i ∈ [Instr.mov, .add, .addc, .subc, .sub, .cmp, .dadd, .bit, .bic, .bis, .xor, .and] →
    (extWords f.srcField f.srcReg = 1 → s.window.len < s.pos + 2 →
      exec (i f) s = .next (truncatedAtCursor s.pos s)) ∧
    ((extWords f.srcField f.srcReg = 1 → s.pos + 2 ≤ s.window.len) →
      extWords f.dstField f.dstReg = 1 → s.window.len < afterSource f s + 2 →
      exec (i f) s = .next (truncatedAtCursor (afterSource f s) s))

/-- The size-variant SingleOperand instructions RRC, RRA and PUSH (R100, R101, R102, R104, R106) complete
wherever the window holds the extension word their operand needs. -/
def Obligations.SizedSingleOperandInstructionsComplete : Prop :=
  ∀ (f : SizedFields) (s : State), (extWords f.field f.reg = 1 → s.pos + 2 ≤ s.window.len) →
    exec (.rrc f) s = .next (singleDone .rrc f.size f.field f.reg s) ∧
    exec (.rra f) s = .next (singleDone .rra f.size f.field f.reg s) ∧
    exec (.push f) s = .next (singleDone .push f.size f.field f.reg s)

/-- The size-invariant SingleOperand instructions SWPB, SXT and CALL (R100, R101, R103, R105, R107) complete
wherever the window holds the extension word their operand needs, with size Word. -/
def Obligations.UnsizedSingleOperandInstructionsComplete : Prop :=
  ∀ (f : UnsizedFields) (s : State), (extWords f.field f.reg = 1 → s.pos + 2 ≤ s.window.len) →
    exec (.swpb f) s = .next (singleDone .swpb .word f.field f.reg s) ∧
    exec (.sxt f) s = .next (singleDone .sxt .word f.field f.reg s) ∧
    exec (.call f) s = .next (singleDone .call .word f.field f.reg s)

/-- Where a SingleOperand instruction ends in `TruncatedInput` (R110, R141). -/
def Obligations.SingleOperandInstructionsTruncate : Prop :=
  ∀ (size : OpSize) (field : AddrField) (reg : Reg) (s : State),
    extWords field reg = 1 → s.window.len < s.pos + 2 →
    exec (.rrc ⟨size, field, reg⟩) s = .next (truncatedAtCursor s.pos s) ∧
    exec (.rra ⟨size, field, reg⟩) s = .next (truncatedAtCursor s.pos s) ∧
    exec (.push ⟨size, field, reg⟩) s = .next (truncatedAtCursor s.pos s) ∧
    exec (.swpb ⟨field, reg⟩) s = .next (truncatedAtCursor s.pos s) ∧
    exec (.sxt ⟨field, reg⟩) s = .next (truncatedAtCursor s.pos s) ∧
    exec (.call ⟨field, reg⟩) s = .next (truncatedAtCursor s.pos s)

/-- RETI completes in every state (R108): it takes no operand and cannot fail. -/
def Obligations.RetiCompletesEverywhere : Prop :=
  ∀ s : State, exec .reti s = .next (retiDone s)

/-- The eight jumps complete in every state (R113, R115 to R122): the record carries the condition and both
offsets, and neither the window nor the cursor is touched. -/
def Obligations.JumpsCompleteEverywhere : Prop :=
  ∀ (o : BitVec 10) (s : State),
    exec (.jne o) s = .next (jumpDone .jne 0 o s) ∧
    exec (.jeq o) s = .next (jumpDone .jeq 1 o s) ∧
    exec (.jnc o) s = .next (jumpDone .jnc 2 o s) ∧
    exec (.jc o) s = .next (jumpDone .jc 3 o s) ∧
    exec (.jn o) s = .next (jumpDone .jn 4 o s) ∧
    exec (.jge o) s = .next (jumpDone .jge 5 o s) ∧
    exec (.jl o) s = .next (jumpDone .jl 6 o s) ∧
    exec (.jmp o) s = .next (jumpDone .jmp 7 o s)

/-- `jump_offset(w)` (R112): the word offset is the two's-complement value of the 10-bit field, −512 to 511, and
the byte offset is exactly twice it, even, −1024 to 1022; as 16-bit patterns they are the field with bit 9 copied
into bits 10 to 15, and that pattern shifted left by one. -/
def Obligations.JumpOffsetIsTheSignedField : Prop :=
  ∀ off10 : BitVec 10,
    (jumpOffset off10).1 = offsetWords off10.toNat ∧ (jumpOffset off10).2 = 2 * (jumpOffset off10).1 ∧
    -512 ≤ (jumpOffset off10).1 ∧ (jumpOffset off10).1 ≤ 511 ∧
    (jumpOffset off10).1 = off10.toInt ∧
    BitVec.ofInt 16 (jumpOffset off10).1 = off10.signExtend 16 ∧
    BitVec.ofInt 16 (jumpOffset off10).2 = off10.signExtend 16 <<< 1

/-- The frame of every instruction: it answers a next state, every byte of the window is unchanged (R32), the
cursor moves forward by at most two words, and all that is written besides is the outcome, which does not
depend on the outcome before. -/
def Obligations.InstructionsWriteOnlyCursorAndOutcome : Prop :=
  ∀ (i : Instr) (s : State), ∃ t, exec i s = .next t ∧ t.window = s.window ∧
    (∀ a, t.window.byte a = s.window.byte a) ∧ t.out ≠ .pending ∧
    (t.pos = s.pos ∨ t.pos = s.pos + 2 ∨ t.pos = s.pos + 4) ∧
    ∀ o : Output, exec i { s with out := o } = .next t

/-! ## The step -/

/-- A step runs the decoded instruction: where the window's bytes decode to an instruction, that instruction is
well formed and the step is its meaning at cursor position 2 (past the first word); where they do not, the step
answers the decode error (R72). -/
def Obligations.StepRunsTheDecodedInstruction : Prop :=
  ∀ s : State,
    (∀ i, decodeBytes s.window.toBytes = .ok i → i.wf = true ∧ step s = exec i { s with pos := 2 }) ∧
    (∀ e, decodeBytes s.window.toBytes = .error e →
      step s = .next { s with pos := (if s.window.len < 2 then 0 else 2), out := .error e })

/-- `assemble_double(w)` (R85) from the window: size, operands in order, mnemonic, length, and the missing
extension word's error. -/
def Obligations.DoubleOperandWindowGivesItsRecord : Prop :=
  ∀ (w : Word) (rest : List Byte), 0x4 ≤ slice w 15 12 →
    let bs := bytesOfWord w ++ rest
    let size : OpSize := if slice w 6 6 = 1 then .byte else .word
    let srcMode := AddrField.ofNumber (slice w 5 4)
    let dstMode := AddrField.ofNumber (slice w 7 7)
    let p := 2 + 2 * extWords srcMode (regField w 8)
    let q := p + 2 * extWords dstMode (regField w 0)
    (q ≤ bs.length → decodeWindow bs = .ok
      { mnemonic := dblMnemonic (slice w 15 12)
        format := .doubleOperand
        size := size
        source := some (dispatchTable srcMode (regField w 8) size (wordAtOffset bs 2))
        destination := some (dispatchTable dstMode (regField w 0) size (wordAtOffset bs p))
        condition := none
        offsetWords := none
        offsetBytes := none
        length := q }) ∧
    (bs.length < p → decodeWindow bs = .error (.truncatedInput 2 (bs.length - 2))) ∧
    (p ≤ bs.length → bs.length < q → decodeWindow bs = .error (.truncatedInput 2 (bs.length - p)))

/-- `assemble_single(w)` (R100, R101) from the window: RETI takes no operand; the other six report their one
operand as destination, the size bit honoured by RRC, RRA and PUSH only. -/
def Obligations.SingleOperandWindowGivesItsRecord : Prop :=
  ∀ (w : Word) (rest : List Byte), 0x1000 ≤ w.toNat → w.toNat ≤ 0x137F →
    let bs := bytesOfWord w ++ rest
    let op := slice w 9 7
    let size : OpSize := if (op = 0 ∨ op = 2 ∨ op = 4) ∧ slice w 6 6 = 1 then .byte else .word
    let mode := AddrField.ofNumber (slice w 5 4)
    let p := 2 + 2 * extWords mode (regField w 0)
    (op = 6 → decodeWindow bs = .ok
      { mnemonic := .reti, format := .singleOperand, size := .word, source := none, destination := none,
        condition := none, offsetWords := none, offsetBytes := none, length := 2 }) ∧
    (op ≠ 6 → p ≤ bs.length → decodeWindow bs = .ok
      { mnemonic := sglMnemonic op
        format := .singleOperand
        size := size
        source := none
        destination := some (dispatchTable mode (regField w 0) size (wordAtOffset bs 2))
        condition := none
        offsetWords := none
        offsetBytes := none
        length := p }) ∧
    (op ≠ 6 → bs.length < p → decodeWindow bs = .error (.truncatedInput 2 (bs.length - 2)))

/-- `assemble_jump(w)` (R113) from the window, whatever bytes follow the first word. -/
def Obligations.JumpWindowGivesItsRecord : Prop :=
  ∀ (w : Word) (rest : List Byte), slice w 15 13 = 0b001 →
    ∃ c : Condition, c.val = slice w 12 10 ∧ decodeWindow (bytesOfWord w ++ rest) = .ok
      { mnemonic := jmpMnemonic (slice w 12 10)
        format := .conditionalJump
        size := .word
        source := none
        destination := none
        condition := some c
        offsetWords := some (offsetWords (slice w 9 0))
        offsetBytes := some (2 * offsetWords (slice w 9 0))
        length := 2 }

/-! ## Errors -/

/-- Every activation ends, in a next state whose outcome is `ok` or an error, after at most three word reads, and
writes nothing of the window: no fault, no refusal, no abort (R32, R166; R140). -/
def Obligations.EveryActivationEnds : Prop :=
  ∀ s : State, ∃ t, step s = .next t ∧ ((∃ r, t.out = .ok r) ∨ ∃ e, t.out = .error e) ∧
    (t.pos = 0 ∨ t.pos = 2 ∨ t.pos = 4 ∨ t.pos = 6) ∧ t.window = s.window ∧
    ∀ a, t.window.byte a = s.window.byte a

/-- `TruncatedInput` is the outcome exactly when the window holds fewer than two bytes, or fewer than the length
that the known first word gives (R141, R167); its payload is 2 and the 0 or 1 bytes left at the cursor. The
payload rule for a missing extension word is the spec's own decision D9. -/
def Obligations.TruncatedInputExactlyWhenTooShort : Prop :=
  ∀ (bs : List Byte) (needed available : Nat),
    decodeWindow bs = .error (.truncatedInput needed available) ↔
      needed = 2 ∧ available = bs.length % 2 ∧
        (bs.length < 2 ∨ ∃ len, lengthOfWord (firstWord bs) = some len ∧ bs.length < len)

/-- `UnknownOpcode` is the outcome exactly when the first word is in the ranges of R57, whatever follows it, and
it carries that word (R142, R109). -/
def Obligations.UnknownOpcodeExactlyInItsRanges : Prop :=
  ∀ (bs : List Byte) (w : Word),
    decodeWindow bs = .error (.unknownOpcode w) ↔
      2 ≤ bs.length ∧ w = firstWord bs ∧
        (w.toNat ≤ 0x0FFF ∨ (0x1380 ≤ w.toNat ∧ w.toNat ≤ 0x1FFF))

/-- No window gives `ReservedEncoding` (R59, R143), whatever the state of the block. The rule is the spec's
decision D8. -/
def Obligations.ReservedEncodingIsNeverRaised : Prop :=
  ∀ (s t : State) (w : Word), step s = .next t → t.out ≠ .error (.reservedEncoding w)

/-- The order of the error conditions (R144, R74): the first word's truncation, then `UnknownOpcode`, then the
source or single operand's extension word, then the destination's; a window that passes all four decodes. -/
def Obligations.ErrorsComeInTheOrderOfTheAlgorithm : Prop :=
  ∀ bs : List Byte,
    (bs.length < 2 → decodeWindow bs = .error (.truncatedInput 2 bs.length)) ∧
    (2 ≤ bs.length → lengthOfWord (firstWord bs) = none →
      decodeWindow bs = .error (.unknownOpcode (firstWord bs))) ∧
    (∀ len, 2 ≤ bs.length → lengthOfWord (firstWord bs) = some len →
      (bs.length < 2 + 2 * sourceExt (firstWord bs) →
        decodeWindow bs = .error (.truncatedInput 2 (bs.length - 2))) ∧
      (2 + 2 * sourceExt (firstWord bs) ≤ bs.length → bs.length < len →
        decodeWindow bs = .error (.truncatedInput 2 (bs.length - (2 + 2 * sourceExt (firstWord bs))))) ∧
      (len ≤ bs.length → ∃ r, decodeWindow bs = .ok r))

/-! ## The laws of the whole block -/

/-- The invariant holds after reset: the cursor is at 0 (R28, R157). The other two parts of it hold of what the model
itself puts there, an empty window in the model's canonical form and no outcome (notes/assumptions/1.md, 2.md and
3.md, DESIGN CHOICE). -/
def Obligations.ResetMeetsTheInvariant : Prop :=
  State.reset.Inv = true

/-- Reset and the first activation (R28, R157): `pos` is 0, and since nothing else is set, an activation after
reset is an activation at any other time. That no outcome and an empty window stand in the state after reset
is the model's own choice (notes/assumptions/2.md and 3.md). -/
def Obligations.ResetIsLikeAnyOtherTime : Prop :=
  State.reset.pos = 0 ∧ State.reset.out = .pending ∧ State.reset.window = Memory.ofBytes [] ∧
    ∀ (s : State) (bs : List Byte), step (s.present bs) = step (State.reset.present bs)

/-- Every activation keeps the invariant, from every state whose window has the canonical form: the window's
form, the cursor at 0, 2, 4 or 6 (R22), and the outcome a record that meets the invariants of R16 to R20 and
R29 or an error of R141 or R142. Three parts rest on choices: the canonical form of the window
(notes/assumptions/1.md, the model's), the payload `needed = 2`, `available` 0 or 1 (D9; 6.md, the spec's decision)
and that `ReservedEncoding` never stands there (D8; 7.md, the spec's decision). -/
def Obligations.StepKeepsTheInvariant : Prop :=
  ∀ s t : State, s.window.wf = true → step s = .next t → t.Inv = true

/-- A record's `length` is the final cursor position, twice the number of words read; it is 2, 4 or 6, given by
R53 from the first word alone, and the window is at least that long; and a known first word in a window of at
least that length decodes (R167, R20). -/
def Obligations.LengthLaw : Prop :=
  (∀ (s t : State) (r : InstrRecord), step s = .next t → t.out = .ok r →
    t.pos = r.length ∧ (r.length = 2 ∨ r.length = 4 ∨ r.length = 6) ∧ r.length ≤ s.window.len ∧
      lengthOfWord (s.wordAt 0) = some r.length) ∧
  (∀ (s : State) (len : Nat), lengthOfWord (s.wordAt 0) = some len → 2 ≤ s.window.len → len ≤ s.window.len →
    ∃ t r, step s = .next t ∧ t.out = .ok r)

/-- Determinism and statelessness (R160, R10, R147): an activation is a function of the window alone; neither the
cursor nor the outcome left by earlier activations, an error among them, changes anything of the next state. -/
def Obligations.ActivationDependsOnTheWindowAlone : Prop :=
  ∀ s s' : State, s.window = s'.window → step s = step s'

/-- Prefix independence (R161, R37): a record depends on the first `length` bytes only. -/
def Obligations.PrefixIndependence : Prop :=
  ∀ (bs : List Byte) (r : InstrRecord), decodeWindow bs = .ok r →
    ∀ suffix : List Byte, decodeWindow (bs.take r.length ++ suffix) = .ok r

/-- Errors and the bytes after (R161, R34): `UnknownOpcode` depends on the first two bytes, `TruncatedInput` on the
length and the first word alone, so that the last byte of an odd window never matters. -/
def Obligations.ErrorsIgnoreTheBytesAfterTheFirstWord : Prop :=
  ∀ (b0 b1 : Byte) (rest rest' : List Byte),
    (∀ w, decodeWindow (b0 :: b1 :: rest) = .error (.unknownOpcode w) →
      decodeWindow (b0 :: b1 :: rest') = .error (.unknownOpcode w)) ∧
    (∀ n a, rest.length = rest'.length → decodeWindow (b0 :: b1 :: rest) = .error (.truncatedInput n a) →
      decodeWindow (b0 :: b1 :: rest') = .error (.truncatedInput n a)) ∧
    decodeWindow [b0] = decodeWindow [b1]

/-- Bytes at addresses 6 and above are never read (R35), so the binding with six lanes and a count gives the
outcome of the whole sequence (R11). -/
def Obligations.SixLanesGiveTheOutcomeOfTheWholeSequence : Prop :=
  ∀ bs : List Byte, decodeWindow bs = decodeWindow (bs.take 6) ∧
    ∀ (s : State) (lanes : Vector Byte 6) (inLen : Nat), bs.take 6 = lanes.toList.take inLen →
      outcomeOf (step (s.presentLanes lanes inLen)) = decodeWindow bs

/-- Every well-formed record is output: presenting the bytes the encoder writes for it, followed by any others,
decodes to it, and they are `length` bytes. With StepKeepsTheInvariant, the records the block can output are
exactly the well-formed ones. -/
def Obligations.EveryWellFormedRecordIsDecodedFromItsBytes : Prop :=
  ∀ r : InstrRecord, r.wf = true →
    (bytesOfWords (encodeRecord r)).length = r.length ∧
      ∀ rest : List Byte, decodeWindow (bytesOfWords (encodeRecord r) ++ rest) = .ok r

/-- The status output (R149): 0 exactly under a record, 1 exactly under `TruncatedInput`, 2 exactly under
`UnknownOpcode`, never 3; the record and each payload output are shown under their own status and show nothing
under the others (R12); the payloads are 2 and the bytes left at the cursor, which fit their three bits, and the
first word. The numbers of the status are the spec's decision D3, the payload of `TruncatedInput` its decision D9
(notes/assumptions/16.md and 6.md). -/
def Obligations.StatusOutputNamesTheOutcome : Prop :=
  ∀ bs : List Byte, ∃ c, (decodeWindow bs).status = some c ∧ c ≠ 3 ∧
    (c = 0 ↔ ∃ r, decodeWindow bs = .ok r) ∧
    (c = 1 ↔ ∃ n a, decodeWindow bs = .error (.truncatedInput n a)) ∧
    (c = 2 ↔ ∃ w, decodeWindow bs = .error (.unknownOpcode w)) ∧
    (c = 0 ↔ ∃ r, (decodeWindow bs).record = some r) ∧
    (c = 1 ↔ ∃ n, (decodeWindow bs).errNeeded = some n) ∧
    (c = 1 ↔ ∃ a, (decodeWindow bs).errAvailable = some a) ∧
    (c = 2 ↔ ∃ w, (decodeWindow bs).errRawWord = some w) ∧
    (c = 2 ↔ (decodeWindow bs).errRawWord = some (firstWord bs)) ∧
    (c = 0 → (decodeWindow bs).errNeeded = none ∧ (decodeWindow bs).errAvailable = none ∧
      (decodeWindow bs).errRawWord = none) ∧
    (c = 1 → (decodeWindow bs).record = none ∧ (decodeWindow bs).errRawWord = none ∧
      (decodeWindow bs).errNeeded = some 2 ∧
      (decodeWindow bs).errAvailable = some (BitVec.ofNat 3 (bs.length % 2))) ∧
    (c = 2 → (decodeWindow bs).record = none ∧ (decodeWindow bs).errNeeded = none ∧
      (decodeWindow bs).errAvailable = none)

/-! ## The text formatter -/

/-- The document's worked examples (R132; X1, X2, X4): the text of the records their bytes decode to, and the
single byte that does not decode (X3). -/
def Obligations.WorkedExamplesRender : Prop :=
  (∃ r, decodeWindow [0x06, 0x45] = .ok r ∧ r.length = 2 ∧ render r = "MOV R5, R6") ∧
  (∃ r, decodeWindow [0xF9, 0x23] = .ok r ∧ r.offsetWords = some (-7) ∧ r.offsetBytes = some (-14) ∧
    r.length = 2 ∧ render r = "JNE $-14") ∧
  (∃ r, decodeWindow [0x36, 0x40, 0x04, 0x00] = .ok r ∧ r.source = some ⟨none, .immediate 4⟩ ∧ r.length = 4 ∧
    render r = "MOV #4, R6") ∧
  decodeWindow [0x06] = .error (.truncatedInput 2 1)

/-- `dec(n)` (R127): the shortest decimal numeral, a leading `-` for negative values only. The base 10 everywhere is
the spec's decision D17 (R129; notes/assumptions/13.md). -/
def Obligations.NumeralsAreShortestDecimals : Prop :=
  ∀ z : Int, IsDecimal z (numeral Config.block z) ∧ ∀ text, IsDecimal z text → text = numeral Config.block z

/-- The operand templates (R127) with the register names of R128, of every operand that names a register as R17 says,
also one `decode` never outputs: the text of its mode, written out. Register names and the base are the spec's
decision D17 (notes/assumptions/13.md). -/
def Obligations.OperandTextFollowsItsTemplate : Prop :=
  ∀ o : Operand, o.regOk = true →
    IsOperandText o (renderOperand Config.block o) ∧
      ∀ text, IsOperandText o text → text = renderOperand Config.block o

/-- The template (R126, R130), on every record of the formatter's domain (R125): the mnemonic as R29 spells it, `.B`
for Byte size only, the operands that are present in the order source, destination, each in the text of its mode
(R127); a jump renders as its mnemonic and the signed byte offset in decimal, with no suffix. The expected text is
written out, not taken from the formatter. Separators, register names and the base are the spec's decision D17
(notes/assumptions/13.md). -/
def Obligations.RenderFollowsTheTemplate : Prop :=
  ∀ r : InstrRecord, InFormatterDomain r →
    let name := (spelling r.mnemonic).toList
    let suffix : List Char := if r.size = .byte then ['.', 'B'] else []
    (r.format = .doubleOperand → ∃ o p s d, r.source = some o ∧ r.destination = some p ∧
      IsOperandText o s ∧ IsOperandText p d ∧
      (render r).toList = name ++ suffix ++ [' '] ++ s ++ [',', ' '] ++ d) ∧
    (r.format = .singleOperand → r.mnemonic ≠ .reti → ∃ o d, r.destination = some o ∧ IsOperandText o d ∧
      (render r).toList = name ++ suffix ++ [' '] ++ d) ∧
    (r.mnemonic = .reti → render r = "RETI") ∧
    (r.format = .conditionalJump → ∃ ob d, r.offsetBytes = some ob ∧ IsDecimal ob d ∧
      (render r).toList = name ++ [' ', '$'] ++ d)

/-- "two windows render to the same text exactly when they decode to the same record" (R131). -/
def Obligations.RenderTellsRecordsApart : Prop :=
  ∀ (bs bs' : List Byte) (r r' : InstrRecord), decodeWindow bs = .ok r → decodeWindow bs' = .ok r' →
    (render r = render r' ↔ r = r')
end

