-- ==== Sys2Proof/Laws/Bits.lean ====
section
/-! SUPPORT. Bits of a word, two's complement and byte order: ranges and inverses. -/

namespace Sys2Proof

theorem slice_lt (w : Word) (hi lo : Nat) : slice w hi lo < 2 ^ (hi - lo + 1) :=
  Nat.mod_lt _ (Nat.two_pow_pos _)

theorem word_lt (w : Word) : w.toNat < 65536 := w.isLt

theorem byte_lt (b : Byte) : b.toNat < 256 := b.isLt

/-- A 16-bit two's-complement value in terms of the pattern (R6, R51). -/
theorem signed16_eq (v : Nat) : signed 16 v = if v < 32768 then (v : Int) else (v : Int) - 65536 := rfl

/-- A 10-bit two's-complement value in terms of the pattern (R6, R112). -/
theorem signed10_eq (v : Nat) : signed 10 v = if v < 512 then (v : Int) else (v : Int) - 1024 := rfl

theorem signed16_range {v : Nat} (h : v < 65536) : -32768 ≤ signed 16 v ∧ signed 16 v ≤ 32767 := by
  rw [signed16_eq]; split <;> omega

theorem signed10_range {v : Nat} (h : v < 1024) : -512 ≤ signed 10 v ∧ signed 10 v ≤ 511 := by
  rw [signed10_eq]; split <;> omega

theorem unsigned16_signed {v : Nat} (h : v < 65536) : unsigned 16 (signed 16 v) = v := by
  rw [signed16_eq, unsigned]; split <;> omega

theorem unsigned10_signed {v : Nat} (h : v < 1024) : unsigned 10 (signed 10 v) = v := by
  rw [signed10_eq, unsigned]; split <;> omega

theorem signed16_unsigned {z : Int} (h1 : -32768 ≤ z) (h2 : z ≤ 32767) : signed 16 (unsigned 16 z) = z := by
  rw [signed16_eq, unsigned]; split <;> omega

theorem signed10_unsigned {z : Int} (h1 : -512 ≤ z) (h2 : z ≤ 511) : signed 10 (unsigned 10 z) = z := by
  rw [signed10_eq, unsigned]; split <;> omega

theorem unsigned16_lt (z : Int) : unsigned 16 z < 65536 := by
  unfold unsigned; omega

theorem unsigned10_lt (z : Int) : unsigned 10 z < 1024 := by
  unfold unsigned; omega

@[simp] theorem toNat_ofNat16 {n : Nat} (h : n < 65536) : (BitVec.ofNat 16 n).toNat = n := by
  simpa using Nat.mod_eq_of_lt h

/-- The value of a word assembled from two bytes (R33). -/
theorem wordOfBytes_toNat (lo hi : Byte) : (wordOfBytes lo hi).toNat = lo.toNat + 256 * hi.toNat := by
  have := byte_lt lo
  have := byte_lt hi
  exact toNat_ofNat16 (by omega)

/-- Assembling the two bytes of a word gives the word back. -/
theorem wordOfBytes_halves (w : Word) :
    wordOfBytes (BitVec.ofNat 8 (w.toNat % 256)) (BitVec.ofNat 8 (w.toNat / 256)) = w := by
  have := word_lt w
  apply BitVec.eq_of_toNat_eq
  rw [wordOfBytes_toNat]
  simp only [BitVec.toNat_ofNat]
  omega

/-- The bytes of a word assembled from two bytes are those two bytes. -/
theorem bytesOfWord_wordOfBytes (lo hi : Byte) : bytesOfWord (wordOfBytes lo hi) = [lo, hi] := by
  have := byte_lt lo
  have := byte_lt hi
  have h1 : BitVec.ofNat 8 ((wordOfBytes lo hi).toNat % 256) = lo := by
    apply BitVec.eq_of_toNat_eq
    rw [wordOfBytes_toNat, BitVec.toNat_ofNat]; omega
  have h2 : BitVec.ofNat 8 ((wordOfBytes lo hi).toNat / 256) = hi := by
    apply BitVec.eq_of_toNat_eq
    rw [wordOfBytes_toNat, BitVec.toNat_ofNat]; omega
  rw [bytesOfWord, h1, h2]

/-- A window that starts with a word's bytes decodes that word (R46). -/
@[simp] theorem decodeBytes_bytesOfWord (w : Word) (rest : List Byte) :
    decodeBytes (bytesOfWord w ++ rest) = decodeWord w := by
  simp only [bytesOfWord, List.cons_append, List.nil_append, decodeBytes, wordOfBytes_halves]

@[simp] theorem number_lt (f : AddrField) : f.number < 4 := by cases f <;> decide

@[simp] theorem ofNumber_number (f : AddrField) : AddrField.ofNumber f.number = f := by cases f <;> rfl

theorem number_ofNumber {n : Nat} (h : n < 4) : (AddrField.ofNumber n).number = n := by
  match n, h with
  | 0, _ => rfl
  | 1, _ => rfl
  | 2, _ => rfl
  | 3, _ => rfl

/-- A register field is the four bits of the word from `lo` on (R48, R49). -/
theorem regField_val (w : Word) (lo : Nat) : (regField w lo).val = slice w (lo + 3) lo := by
  have h := slice_lt w (lo + 3) lo
  rw [show lo + 3 - lo + 1 = 4 by omega] at h
  exact Nat.mod_eq_of_lt h

theorem toBit_lt (z : OpSize) : z.toBit < 2 := by cases z <;> decide

end Sys2Proof
end

