-- ==== Sys2Proof/Laws/Decode.lean ====
section
/-! SUPPORT. What a classification and a decoded first word can be, said once. -/

namespace Sys2Proof

/-- Which leading bits stand behind each class (R70). -/
theorem classify_cases {w : Word} {fmt : Format} (h : classify w = some fmt) :
    (fmt = .doubleOperand ∧ 4 ≤ slice w 15 12 ∧ slice w 15 12 < 16) ∨
    (fmt = .singleOperand ∧ slice w 15 10 = 4 ∧ slice w 9 7 ≤ 6) ∨
    (fmt = .conditionalJump ∧ slice w 15 13 = 1) := by
  unfold classify at h
  split at h
  · simp only [Option.some.injEq] at h; exact .inr (.inr ⟨h.symm, ‹_›⟩)
  · split at h
    · simp only [Option.some.injEq] at h; exact .inl ⟨h.symm, ‹_›, slice_lt w 15 12⟩
    · split at h
      · rename_i hs; simp only [Option.some.injEq] at h; exact .inr (.inl ⟨h.symm, hs⟩)
      · cases h

/-- A word that decodes was classified and looked up. -/
theorem decodeWord_ok_cases {w : Word} {i : Instr} (h : decodeWord w = .ok i) :
    ∃ fmt, classify w = some fmt ∧ lookup fmt w = some i := by
  unfold decodeWord at h
  cases hc : classify w with
  | none => simp [hc] at h
  | some fmt =>
    cases hl : lookup fmt w with
    | none => simp [hc, hl] at h
    | some j => simp [hc, hl] at h; subst h; exact ⟨fmt, rfl, hl⟩

/-- A classified word decodes to what the lookup finds. -/
theorem decodeWord_of_lookup {w : Word} {fmt : Format} {i : Instr} (h : classify w = some fmt)
    (hl : lookup fmt w = some i) : decodeWord w = .ok i := by
  simp [decodeWord, h, hl]

/-- The only error of a first word carries that word (R73, R142). -/
theorem decodeWord_error_eq {w : Word} {e : DecodeError} (h : decodeWord w = .error e) : e = .unknownOpcode w := by
  unfold decodeWord at h
  split at h
  · exact (Except.error.inj h).symm
  · split at h
    · cases h
    · exact (Except.error.inj h).symm

end Sys2Proof
end

