-- ==== Sys2Proof/Laws/State.lean ====
section
/-! SUPPORT. One lemma per field per update of the state, and what the two ends of an activation answer. -/

namespace Sys2Proof.Machine

variable (s : State) (bs : List Byte) (n w : Nat) (r : InstrRecord) (e : DecodeError)

@[simp] theorem begin_window : s.begin.window = s.window := rfl
@[simp] theorem begin_pos : s.begin.pos = 0 := rfl
@[simp] theorem begin_out : s.begin.out = s.out := rfl

@[simp] theorem present_window : (s.present bs).window = Memory.ofBytes bs := rfl
@[simp] theorem present_pos : (s.present bs).pos = s.pos := rfl
@[simp] theorem present_out : (s.present bs).out = s.out := rfl

@[simp] theorem withFetchWord_window : (s.withFetchWord n w).window = Memory.ofBytes (tableBytes n w) := rfl
@[simp] theorem withFetchWord_pos : (s.withFetchWord n w).pos = s.pos := rfl
@[simp] theorem withFetchWord_out : (s.withFetchWord n w).out = s.out := rfl

@[simp] theorem reset_window : State.reset.window = Memory.empty := rfl
@[simp] theorem reset_pos : State.reset.pos = 0 := rfl
@[simp] theorem reset_out : State.reset.out = .pending := rfl

@[simp] theorem ofBytes_len : (Memory.ofBytes bs).len = bs.length := rfl

@[simp] theorem outcomeOf_raiseError : outcomeOf (raiseError e s) = .error e := rfl
@[simp] theorem outcomeOf_returnOk : outcomeOf (returnOk r s) = .ok r := rfl

@[simp] theorem consumed_eq : consumed s = s.pos := rfl

end Sys2Proof.Machine
end

