-- ==== Sys2Proof/Laws/Memory.lean ====
section
/-! SUPPORT. The window: what a presented window holds, that it has the canonical form, and that windows in
canonical form with equal bytes are equal data. -/

namespace Sys2Proof.Machine

/-- The cells of a sequence hold nothing below the address they start at. -/
theorem lookupCell_cellsOf_lt (bs : List Byte) (k a : Nat) (h : a < k) :
    lookupCell (cellsOf k bs) a = unlistedByte := by
  induction bs generalizing k with
  | nil => rfl
  | cons b rest ih =>
    unfold cellsOf
    split
    · exact ih (k + 1) (by omega)
    · have : k ≠ a := by omega
      simp [lookupCell, this, ih (k + 1) (by omega)]

/-- The cells of a sequence hold its bytes, and nothing beyond them. -/
theorem lookupCell_cellsOf (bs : List Byte) (k j : Nat) :
    lookupCell (cellsOf k bs) (k + j) = (bs[j]?).getD unlistedByte := by
  induction bs generalizing k j with
  | nil => rfl
  | cons b rest ih =>
    cases j with
    | zero =>
      unfold cellsOf
      split
      · rename_i h
        simp [lookupCell_cellsOf_lt rest (k + 1) k (by omega), h]
      · simp [lookupCell]
    | succ j =>
      have hj : k + (j + 1) = k + 1 + j := by omega
      unfold cellsOf
      split
      · rw [hj, ih]; simp
      · have : k ≠ k + 1 + j := by omega
        rw [hj]; simp [lookupCell, this, ih]

/-- The byte at an address of a presented window (R11, R31). -/
theorem lookupCell_ofBytes (bs : List Byte) (a : Nat) :
    lookupCell (Memory.ofBytes bs).cells a = (bs[a]?).getD unlistedByte := by
  have h := lookupCell_cellsOf bs 0 a
  rwa [Nat.zero_add] at h

/-- Reading a presented window (R11, R31). -/
@[simp] theorem byte_ofBytes (bs : List Byte) (a : Nat) : (Memory.ofBytes bs).byte a = bs[a]? := by
  unfold Memory.byte
  rw [lookupCell_ofBytes]
  by_cases h : a < bs.length
  · simp [h]
  · simp [h]

theorem cellsOk_mono {len lo lo' : Nat} {cs : List Host.Cell} (h : lo ≤ lo')
    (hc : Memory.cellsOk len lo' cs = true) : Memory.cellsOk len lo cs = true := by
  cases cs with
  | nil => rfl
  | cons c rest =>
    simp only [Memory.cellsOk, Bool.and_eq_true, decide_eq_true_eq] at hc ⊢
    exact ⟨⟨⟨by omega, hc.1.1.2⟩, hc.1.2⟩, hc.2⟩

theorem cellsOf_ok (bs : List Byte) (k len : Nat) (h : k + bs.length ≤ len) :
    Memory.cellsOk len k (cellsOf k bs) = true := by
  induction bs generalizing k with
  | nil => rfl
  | cons b rest ih =>
    simp only [List.length_cons] at h
    have ih' := ih (k + 1) (by omega)
    unfold cellsOf
    split
    · exact cellsOk_mono (by omega) ih'
    · rename_i hb
      simp [Memory.cellsOk, ih', hb]
      omega

/-- Presenting a window keeps the canonical form: it is the only operation that makes one (R32). -/
@[simp] theorem ofBytes_wf (bs : List Byte) : (Memory.ofBytes bs).wf = true :=
  cellsOf_ok bs 0 bs.length (by omega)

@[simp] theorem empty_wf : Memory.empty.wf = true := rfl

@[simp] theorem present_wf (s : State) (bs : List Byte) : (s.present bs).window.wf = true := ofBytes_wf bs

@[simp] theorem toBytes_length (m : Memory) : m.toBytes.length = m.len := by
  simp [Memory.toBytes]

/-- The bytes of a presented window are the bytes presented. -/
@[simp] theorem toBytes_ofBytes (bs : List Byte) : (Memory.ofBytes bs).toBytes = bs := by
  apply List.ext_getElem
  · simp
  · intro i h1 h2
    simp [Memory.toBytes, lookupCell_ofBytes, h2]

/-- Reading a byte through the window's list of bytes. -/
theorem toBytes_getElem? (m : Memory) (a : Nat) : m.toBytes[a]? = m.byte a := by
  unfold Memory.toBytes Memory.byte
  by_cases h : a < m.len
  · simp [h]
  · simp [h]

/-- `MemRead(a, 2)` is defined exactly when `a + 2 <= len` (R7). -/
theorem word_eq (m : Memory) (a : Nat) :
    m.word a = if a + 2 ≤ m.len then some (wordOfBytes (lookupCell m.cells a) (lookupCell m.cells (a + 1)))
      else none := by
  unfold Memory.word Memory.byte
  by_cases h1 : a + 1 < m.len
  · simp [h1, show a < m.len by omega, show a + 2 ≤ m.len by omega]
  · by_cases h0 : a < m.len
    · simp [h0, h1, show ¬ a + 2 ≤ m.len by omega]
    · simp [h0, show ¬ a + 2 ≤ m.len by omega]

end Sys2Proof.Machine
end

