-- ==== Sys2Proof/Laws/Ops.lean ====
section
/-! SUPPORT. The word cursor: everything `takeWord` and `peekWord` can do. -/

namespace Sys2Proof.Machine

/-- The payload at the cursor, the spec's own rule (R141). -/
@[simp] theorem truncatedAt_block (pos len : Nat) :
    truncatedAt Config.block pos len = .truncatedInput 2 (len - pos) := rfl

theorem takeWord_ok {cfg : Config} {s : State} (h : s.pos + 2 ≤ s.window.len) :
    takeWord cfg s = .ok (s.wordAt s.pos) { s with pos := s.pos + 2 } := by
  have : ¬ s.window.len - s.pos < 2 := by omega
  simp [takeWord, this]

theorem takeWord_raised {cfg : Config} {s : State} (h : ¬ s.pos + 2 ≤ s.window.len) :
    takeWord cfg s = .raised (truncatedAt cfg s.pos s.window.len) s := by
  have : s.window.len - s.pos < 2 := by omega
  simp [takeWord, this]

theorem peekWord_ok {cfg : Config} {s : State} {o : Nat} (h : s.pos + o + 2 ≤ s.window.len) :
    peekWord cfg o s = .ok (s.wordAt (s.pos + o)) s := by
  have : ¬ s.window.len - (s.pos + o) < 2 := by omega
  simp [peekWord, this]

theorem peekWord_raised {cfg : Config} {s : State} {o : Nat} (h : ¬ s.pos + o + 2 ≤ s.window.len) :
    peekWord cfg o s = .raised (truncatedAt cfg (s.pos + o) s.window.len) s := by
  have : s.window.len - (s.pos + o) < 2 := by omega
  simp [peekWord, this]

/-- The word at an address depends on the window alone. -/
theorem wordAt_congr {s t : State} (h : s.window = t.window) (a : Nat) : s.wordAt a = t.wordAt a := by
  simp [State.wordAt, h]

@[simp] theorem wordAt_begin (s : State) (a : Nat) : s.begin.wordAt a = s.wordAt a := rfl

@[simp] theorem wordAt_setPos (s : State) (p a : Nat) : State.wordAt { s with pos := p } a = s.wordAt a := rfl

@[simp] theorem wordAt_setOut (s : State) (o : Output) (a : Nat) :
    State.wordAt { s with out := o } a = s.wordAt a := rfl

/-- Two bytes of a presented window as a word (R33). -/
theorem wordAt_present (s : State) (bs : List Byte) (a : Nat) :
    (s.present bs).wordAt a =
      wordOfBytes ((bs[a]?).getD unlistedByte) ((bs[a + 1]?).getD unlistedByte) := by
  simp only [State.wordAt, present_window, lookupCell_ofBytes]

/-- The first word of a window that starts with a word's bytes. -/
theorem wordAt_present_zero (s : State) (w : Word) (rest : List Byte) :
    (s.present (bytesOfWord w ++ rest)).wordAt 0 = w := by
  rw [wordAt_present]
  simpa [bytesOfWord] using wordOfBytes_halves w

end Sys2Proof.Machine
end

