-- ==== Sys2Proof/Laws/Operands.lean ====
section
/-! SUPPORT. Everything the operand resolver can do, said once. -/

namespace Sys2Proof.Machine

theorem extWords_le (mode : AddrField) (reg : Reg) : extWords mode reg ≤ 1 := by
  unfold extWords; split
  · omega
  · split <;> omega

theorem extWords_cases (mode : AddrField) (reg : Reg) : extWords mode reg = 0 ∨ extWords mode reg = 1 := by
  have := extWords_le mode reg; omega

/-- What `resolve` answers: where the operand needs no extension word it succeeds in place; where it needs one
it succeeds past that word or raises `TruncatedInput` in place (R81, R84). -/
theorem resolve_cases (cfg : Config) (mode : AddrField) (reg : Reg) (size : OpSize) (s : State) :
    (extWords mode reg = 0 ∧ ∃ o, o.consumed = false ∧ resolve cfg mode reg size s = .ok o s) ∨
    (extWords mode reg = 1 ∧ s.pos + 2 ≤ s.window.len ∧
      ∃ o, o.consumed = true ∧ resolve cfg mode reg size s = .ok o { s with pos := s.pos + 2 }) ∨
    (extWords mode reg = 1 ∧ ¬ s.pos + 2 ≤ s.window.len ∧
      resolve cfg mode reg size s = .raised (truncatedAt cfg s.pos s.window.len) s) := by
  cases mode with
  | f00 =>
    refine .inl ⟨by simp [extWords], _, ?_, rfl⟩
    unfold resolve00; split <;> rfl
  | f10 =>
    refine .inl ⟨by simp [extWords], _, ?_, rfl⟩
    unfold resolve10; split
    · rfl
    · split <;> rfl
  | f01 =>
    by_cases h3 : reg = 3
    · exact .inl ⟨by simp [extWords, h3], _, rfl, by simp [resolve, resolve01, h3]; rfl⟩
    · have he : extWords .f01 reg = 1 := by simp [extWords, h3]
      by_cases hp : s.pos + 2 ≤ s.window.len
      · refine .inr (.inl ⟨he, hp, ?_⟩)
        by_cases h2 : reg = 2
        · exact ⟨_, rfl, by simp [resolve, resolve01, takeWord_ok hp, h2]; rfl⟩
        · exact ⟨regOperand reg (.indexed (signed 16 (s.wordAt s.pos).toNat)), rfl,
            by simp [resolve, resolve01, takeWord_ok hp, h2, h3]⟩
      · exact .inr (.inr ⟨he, hp, by simp [resolve, resolve01, takeWord_raised hp, h3]⟩)
  | f11 =>
    by_cases h0 : reg = 0
    · have he : extWords .f11 reg = 1 := by simp [extWords, h0]
      by_cases hp : s.pos + 2 ≤ s.window.len
      · exact .inr (.inl ⟨he, hp, valueOperand (.immediate (s.wordAt s.pos).toNat), rfl,
          by simp [resolve, resolve11, takeWord_ok hp, h0]⟩)
      · exact .inr (.inr ⟨he, hp, by simp [resolve, resolve11, takeWord_raised hp, h0]⟩)
    · refine .inl ⟨by simp [extWords, h0], ?_⟩
      by_cases h2 : reg = 2
      · exact ⟨_, rfl, by simp [resolve, resolve11, h2]; rfl⟩
      · by_cases h3 : reg = 3
        · exact ⟨_, rfl, by simp [resolve, resolve11, h3]; rfl⟩
        · exact ⟨regOperand reg (.registerIndirectAutoIncrement (incOf size)), rfl,
            by simp [resolve, resolve11, h0, h2, h3]⟩

/-- Under the spec's own parameters a destination is resolved by the one resolver (R82). -/
@[simp] theorem resolveDestination_block (mode : AddrField) (reg : Reg) (size : OpSize) (s : State) :
    resolveDestination Config.block mode reg size s = resolve Config.block mode reg size s := by
  simp [resolveDestination, Config.block]

end Sys2Proof.Machine
end

