-- ==== Sys2Proof/Laws/Families.lean ====
section
/-! SUPPORT. Everything the shared assembly of each format can do, said once: the provers cite these instead of
unfolding the assembly. -/

namespace Sys2Proof.Machine

/-- Every way `assemble_double` ends (R85, R84): a record whose length is the cursor position, the source's
extension word missing, or the destination's missing after the source was resolved. -/
theorem assembleDouble_cases (m : Mnemonic) (f : DoubleFields) (s : State) :
    (∃ src dst p, p = s.pos + 2 * extWords f.srcField f.srcReg + 2 * extWords f.dstField f.dstReg ∧
      resolve Config.block f.srcField f.srcReg f.size s =
        .ok src { s with pos := s.pos + 2 * extWords f.srcField f.srcReg } ∧
      resolve Config.block f.dstField f.dstReg f.size
        { s with pos := s.pos + 2 * extWords f.srcField f.srcReg } = .ok dst { s with pos := p } ∧
      assembleDouble Config.block m f s = returnOk (doubleRecord m f.size src dst p) { s with pos := p }) ∨
    (extWords f.srcField f.srcReg = 1 ∧ ¬ s.pos + 2 ≤ s.window.len ∧
      assembleDouble Config.block m f s = raiseError (.truncatedInput 2 (s.window.len - s.pos)) s) ∨
    (extWords f.dstField f.dstReg = 1 ∧ ¬ s.pos + 2 * extWords f.srcField f.srcReg + 2 ≤ s.window.len ∧
      s.pos + 2 * extWords f.srcField f.srcReg ≤ max s.pos s.window.len ∧
      assembleDouble Config.block m f s =
        raiseError (.truncatedInput 2 (s.window.len - (s.pos + 2 * extWords f.srcField f.srcReg)))
          { s with pos := s.pos + 2 * extWords f.srcField f.srcReg }) := by
  unfold assembleDouble
  rcases resolve_cases Config.block f.srcField f.srcReg f.size s with
    ⟨e, o, _, h⟩ | ⟨e, hp, o, _, h⟩ | ⟨e, hp, h⟩
  · rw [h, e]
    rcases resolve_cases Config.block f.dstField f.dstReg f.size s with
      ⟨e2, o2, _, h2⟩ | ⟨e2, hp2, o2, _, h2⟩ | ⟨e2, hp2, h2⟩
    · exact .inl ⟨o, o2, s.pos, by omega, rfl, h2, by simp [h2]⟩
    · exact .inl ⟨o, o2, s.pos + 2, by omega, rfl, h2, by simp [h2]⟩
    · exact .inr (.inr ⟨e2, hp2, by omega, by simp [h2]⟩)
  · rw [h, e]
    rcases resolve_cases Config.block f.dstField f.dstReg f.size { s with pos := s.pos + 2 } with
      ⟨e2, o2, _, h2⟩ | ⟨e2, hp2, o2, _, h2⟩ | ⟨e2, hp2, h2⟩
    · exact .inl ⟨o, o2, s.pos + 2, by omega, rfl, h2, by simp [h2]⟩
    · exact .inl ⟨o, o2, s.pos + 2 + 2, by omega, rfl, h2, by simp [h2]⟩
    · exact .inr (.inr ⟨e2, hp2, by omega, by simp [h2]⟩)
  · exact .inr (.inl ⟨e, hp, by simp [h]⟩)

/-- Every way `assemble_single` ends for an operation that takes an operand (R100, R84). -/
theorem assembleSingle_cases (m : Mnemonic) (size : OpSize) (field : AddrField) (reg : Reg) (s : State) :
    (∃ opd p, p = s.pos + 2 * extWords field reg ∧
      resolve Config.block field reg size s = .ok opd { s with pos := p } ∧
      assembleSingle Config.block m size field reg s =
        returnOk (singleRecord m size opd p) { s with pos := p }) ∨
    (extWords field reg = 1 ∧ ¬ s.pos + 2 ≤ s.window.len ∧
      assembleSingle Config.block m size field reg s =
        raiseError (.truncatedInput 2 (s.window.len - s.pos)) s) := by
  unfold assembleSingle
  rcases resolve_cases Config.block field reg size s with ⟨e, o, _, h⟩ | ⟨e, hp, o, _, h⟩ | ⟨e, hp, h⟩
  · exact .inl ⟨o, s.pos, by omega, h, by simp [h]⟩
  · exact .inl ⟨o, s.pos + 2, by omega, h, by simp [h]⟩
  · exact .inr ⟨e, hp, by simp [h]⟩

/-- What a step does after the first word: the two errors before an instruction is known, or the instruction's
meaning at cursor position 2 (R72, R74). -/
theorem step_cases (s : State) :
    (¬ 2 ≤ s.window.len ∧ step s = raiseError (.truncatedInput 2 s.window.len) s.begin) ∨
    (2 ≤ s.window.len ∧ ∃ e, decodeWord (s.wordAt 0) = .error e ∧ step s = raiseError e { s with pos := 2 }) ∨
    (2 ≤ s.window.len ∧ ∃ i, decodeWord (s.wordAt 0) = .ok i ∧ step s = exec i { s with pos := 2 }) := by
  by_cases h : 2 ≤ s.window.len
  · have ht := takeWord_ok (cfg := Config.block) (s := s.begin) (by simpa using h)
    refine .inr ?_
    cases hd : decodeWord (s.wordAt 0) with
    | error e =>
      refine .inl ⟨h, e, rfl, ?_⟩
      have hd' : decodeWord (s.begin.wordAt s.begin.pos) = .error e := hd
      unfold step
      rw [ht]
      simp only [hd']
      rfl
    | ok i =>
      refine .inr ⟨h, i, rfl, ?_⟩
      have hd' : decodeWord (s.begin.wordAt s.begin.pos) = .ok i := hd
      unfold step
      rw [ht]
      simp only [hd']
      rfl
  · refine .inl ⟨h, ?_⟩
    have ht := takeWord_raised (cfg := Config.block) (s := s.begin) (by simpa using h)
    unfold step
    rw [ht]
    simp

/-- Every instruction's meaning is one of the three shared endings (R85, R100, R113; RETI assembles no operand). -/
theorem exec_shape (i : Instr) :
    (∃ m f, ∀ s, exec i s = assembleDouble Config.block m f s) ∨
    (∃ m size field reg, ∀ s, exec i s = assembleSingle Config.block m size field reg s) ∨
    (∃ r, ∀ s, exec i s = returnOk r s) := by
  cases i
  case reti => exact .inr (.inr ⟨_, fun _ => rfl⟩)
  case rrc | swpb | rra | sxt | push | call => exact .inr (.inl ⟨_, _, _, _, fun _ => rfl⟩)
  case jne | jeq | jnc | jc | jn | jge | jl | jmp => exact .inr (.inr ⟨_, fun _ => rfl⟩)
  all_goals exact .inl ⟨_, _, fun _ => rfl⟩

end Sys2Proof.Machine
end

