-- ==== Sys2Proof/Laws/PerInstr.lean ====
section
/-! SUPPORT. The family TableRow: the word of an instruction matches its row of the opcode table. -/

namespace Sys2Proof.Laws.TableRow

/-- The encoded word's fixed field is the one spec/opcode_table.json gives the instruction's row. -/
def Statement (i : Instr) : Prop :=
  slice (encode i) 15 i.mnemonic.fixedField.1 = i.mnemonic.fixedField.2

theorem double_fixed (opcode : Nat) (f : DoubleFields) (h : opcode < 16) :
    slice (encodeDouble opcode f) 15 12 = opcode := by
  have h1 := f.srcReg.isLt
  have h2 := f.dstReg.isLt
  have h3 := toBit_lt f.size
  have h4 := number_lt f.srcField
  rw [encodeDouble, slice, toNat_ofNat16 (by omega)]
  omega

theorem sized_fixed (op : Nat) (f : SizedFields) (h : op < 8) :
    slice (encodeSized op f) 15 7 = 32 + op := by
  have h2 := f.reg.isLt
  have h3 := toBit_lt f.size
  have h4 := number_lt f.field
  rw [encodeSized, slice, toNat_ofNat16 (by omega)]
  omega

theorem unsized_fixed (op : Nat) (f : UnsizedFields) (h : op < 8) :
    slice (encodeUnsized op f) 15 7 = 32 + op := by
  have h2 := f.reg.isLt
  have h4 := number_lt f.field
  rw [encodeUnsized, slice, toNat_ofNat16 (by omega)]
  omega

theorem jump_fixed (cond : Nat) (o : BitVec 10) (h : cond < 8) :
    slice (encodeJump cond o) 15 10 = 8 + cond := by
  have h2 := o.isLt
  rw [encodeJump, slice, toNat_ofNat16 (by omega)]
  omega

theorem mov (f : DoubleFields) : Statement (.mov f) := double_fixed 0x4 f (by decide)
theorem add (f : DoubleFields) : Statement (.add f) := double_fixed 0x5 f (by decide)
theorem addc (f : DoubleFields) : Statement (.addc f) := double_fixed 0x6 f (by decide)
theorem subc (f : DoubleFields) : Statement (.subc f) := double_fixed 0x7 f (by decide)
theorem sub (f : DoubleFields) : Statement (.sub f) := double_fixed 0x8 f (by decide)
theorem cmp (f : DoubleFields) : Statement (.cmp f) := double_fixed 0x9 f (by decide)
theorem dadd (f : DoubleFields) : Statement (.dadd f) := double_fixed 0xA f (by decide)
theorem bit (f : DoubleFields) : Statement (.bit f) := double_fixed 0xB f (by decide)
theorem bic (f : DoubleFields) : Statement (.bic f) := double_fixed 0xC f (by decide)
theorem bis (f : DoubleFields) : Statement (.bis f) := double_fixed 0xD f (by decide)
theorem xor (f : DoubleFields) : Statement (.xor f) := double_fixed 0xE f (by decide)
theorem and (f : DoubleFields) : Statement (.and f) := double_fixed 0xF f (by decide)
theorem rrc (f : SizedFields) : Statement (.rrc f) := sized_fixed 0 f (by decide)
theorem swpb (f : UnsizedFields) : Statement (.swpb f) := unsized_fixed 1 f (by decide)
theorem rra (f : SizedFields) : Statement (.rra f) := sized_fixed 2 f (by decide)
theorem sxt (f : UnsizedFields) : Statement (.sxt f) := unsized_fixed 3 f (by decide)
theorem push (f : SizedFields) : Statement (.push f) := sized_fixed 4 f (by decide)
theorem call (f : UnsizedFields) : Statement (.call f) := unsized_fixed 5 f (by decide)
theorem reti : Statement .reti := rfl
theorem jne (o : BitVec 10) : Statement (.jne o) := jump_fixed 0 o (by decide)
theorem jeq (o : BitVec 10) : Statement (.jeq o) := jump_fixed 1 o (by decide)
theorem jnc (o : BitVec 10) : Statement (.jnc o) := jump_fixed 2 o (by decide)
theorem jc (o : BitVec 10) : Statement (.jc o) := jump_fixed 3 o (by decide)
theorem jn (o : BitVec 10) : Statement (.jn o) := jump_fixed 4 o (by decide)
theorem jge (o : BitVec 10) : Statement (.jge o) := jump_fixed 5 o (by decide)
theorem jl (o : BitVec 10) : Statement (.jl o) := jump_fixed 6 o (by decide)
theorem jmp (o : BitVec 10) : Statement (.jmp o) := jump_fixed 7 o (by decide)

end Sys2Proof.Laws.TableRow
end

