-- ==== Sys2Proof/Tests/Slice0.lean ====
section
/-! SUPPORT. Tests. Expected values come from spec/95_test_vectors.md (named by vector) or, for decoded words, from the
encodings of 30_encoding.md; then the ill-formed terms each well-formedness check refuses, and for each obligation
with hypotheses a concrete case that meets them. -/

namespace Sys2Proof.Tests

open Sys2Proof.Machine Sys2Proof.Claims

/-! ## Helpers -/

/-- A state whose window holds these bytes, the cursor at `pos`. -/
def at' (pos : Nat) (bs : List Byte) : State :=
  { State.reset.present bs with pos := pos }

/-- An operand with a register. -/
def rop (reg : Reg) (mode : AddressingMode) : Operand := ⟨some reg, mode⟩

/-- An operand that carries its value. -/
def vop (mode : AddressingMode) : Operand := ⟨none, mode⟩

/-- The record of a DoubleOperand row of the vectors. -/
def dbl (m : Mnemonic) (size : OpSize) (src dst : Operand) (len : Nat) : InstrRecord :=
  ⟨m, .doubleOperand, size, some src, some dst, none, none, none, len⟩

/-- The record of a SingleOperand row of the vectors. -/
def sgl (m : Mnemonic) (size : OpSize) (dst : Operand) (len : Nat) : InstrRecord :=
  ⟨m, .singleOperand, size, none, some dst, none, none, none, len⟩

/-- The record of RETI. -/
def reti : InstrRecord := ⟨.reti, .singleOperand, .word, none, none, none, none, none, 2⟩

/-- The record of a ConditionalJump row of the vectors. -/
def jump (m : Mnemonic) (c : Condition) (ow ob : Int) : InstrRecord :=
  ⟨m, .conditionalJump, .word, none, none, some c, some ow, some ob, 2⟩

/-! ## Each constructor's decoding, its word written from R48, R49, R50 and R54 to R56 -/

theorem test_word_mov : decodeWord 0b0100010100000110 = .ok (.mov ⟨5, .f00, .word, .f00, 6⟩) := by rfl
theorem test_word_add : decodeWord 0b0101000000111010 = .ok (.add ⟨0, .f00, .word, .f11, 10⟩) := by rfl
theorem test_word_addc : decodeWord 0b0110110011101101 = .ok (.addc ⟨12, .f01, .byte, .f10, 13⟩) := by rfl
theorem test_word_subc : decodeWord 0b0111011100011000 = .ok (.subc ⟨7, .f00, .word, .f01, 8⟩) := by rfl
theorem test_word_sub : decodeWord 0b1000001100010101 = .ok (.sub ⟨3, .f00, .word, .f01, 5⟩) := by rfl
theorem test_word_cmp : decodeWord 0b1001000010110010 = .ok (.cmp ⟨0, .f01, .word, .f11, 2⟩) := by rfl
theorem test_word_dadd : decodeWord 0b1010001001111001 = .ok (.dadd ⟨2, .f00, .byte, .f11, 9⟩) := by rfl
theorem test_word_bit : decodeWord 0b1011001110110010 = .ok (.bit ⟨3, .f01, .word, .f11, 2⟩) := by rfl
theorem test_word_bic : decodeWord 0b1100001000110010 = .ok (.bic ⟨2, .f00, .word, .f11, 2⟩) := by rfl
theorem test_word_bis : decodeWord 0b1101000011010000 = .ok (.bis ⟨0, .f01, .byte, .f01, 0⟩) := by rfl
theorem test_word_xor : decodeWord 0b1110000101110111 = .ok (.xor ⟨1, .f00, .byte, .f11, 7⟩) := by rfl
theorem test_word_and : decodeWord 0b1111111111111111 = .ok (.and ⟨15, .f01, .byte, .f11, 15⟩) := by rfl
theorem test_word_rrc : decodeWord 0b0001000001100110 = .ok (.rrc ⟨.byte, .f10, 6⟩) := by rfl
theorem test_word_swpb : decodeWord 0b0001000011111000 = .ok (.swpb ⟨.f11, 8⟩) := by rfl
theorem test_word_rra : decodeWord 0b0001000100011001 = .ok (.rra ⟨.word, .f01, 9⟩) := by rfl
theorem test_word_sxt : decodeWord 0b0001000110010010 = .ok (.sxt ⟨.f01, 2⟩) := by rfl
theorem test_word_push : decodeWord 0b0001001001110100 = .ok (.push ⟨.byte, .f11, 4⟩) := by rfl
theorem test_word_call : decodeWord 0b0001001011110101 = .ok (.call ⟨.f11, 5⟩) := by rfl
theorem test_word_reti : decodeWord 0b0001001101111111 = .ok .reti := by rfl
theorem test_word_jne : decodeWord 0b0010001111111001 = .ok (.jne 0x3F9) := by rfl
theorem test_word_jeq : decodeWord 0b0010010000000000 = .ok (.jeq 0) := by rfl
theorem test_word_jnc : decodeWord 0b0010100000000001 = .ok (.jnc 1) := by rfl
theorem test_word_jc : decodeWord 0b0010110111111111 = .ok (.jc 0x1FF) := by rfl
theorem test_word_jn : decodeWord 0b0011001000000000 = .ok (.jn 0x200) := by rfl
theorem test_word_jge : decodeWord 0b0011011111111111 = .ok (.jge 0x3FF) := by rfl
theorem test_word_jl : decodeWord 0b0011100000010000 = .ok (.jl 16) := by rfl
theorem test_word_jmp : decodeWord 0b0011110000000010 = .ok (.jmp 2) := by rfl
theorem test_word_unknown : [0x0000, 0x0FFF, 0x1380, 0x13FF, 0x1400, 0x1FFF].map decodeWord =
    [0x0000, 0x0FFF, 0x1380, 0x13FF, 0x1400, 0x1FFF].map fun w => .error (.unknownOpcode w) := by rfl

/-! ## The vectors V-D, V-S and V-J, one per instruction; register-field and length corners in the second ones -/

/-- V-D2 -/
theorem test_mov : decodeWindow [0xF6, 0x44, 0x02, 0x00] =
    .ok (dbl .mov .byte (rop 4 (.registerIndirectAutoIncrement 1)) (rop 6 (.indexed 2)) 4) ∧
    render (dbl .mov .byte (rop 4 (.registerIndirectAutoIncrement 1)) (rop 6 (.indexed 2)) 4) = "MOV.B @R4+, 2(R6)" := by decide
/-- V-D3 -/
theorem test_add : decodeWindow [0x3A, 0x50, 0x34, 0x12] =
    .ok (dbl .add .word (vop (.immediate 4660)) (rop 10 .registerDirect) 4) ∧
    render (dbl .add .word (vop (.immediate 4660)) (rop 10 .registerDirect) 4) = "ADD #4660, R10" := by decide
/-- V-D5 -/
theorem test_addc : decodeWindow [0xED, 0x6C, 0xFE, 0xFF] =
    .ok (dbl .addc .byte (rop 12 .registerIndirect) (rop 13 (.indexed (-2))) 4) ∧
    render (dbl .addc .byte (rop 12 .registerIndirect) (rop 13 (.indexed (-2))) 4) = "ADDC.B @R12, -2(R13)" := by decide
/-- V-D6 -/
theorem test_subc : decodeWindow [0x18, 0x77, 0x10, 0x00] =
    .ok (dbl .subc .word (rop 7 (.indexed 16)) (rop 8 .registerDirect) 4) ∧
    render (dbl .subc .word (rop 7 (.indexed 16)) (rop 8 .registerDirect) 4) = "SUBC 16(R7), R8" := by decide
/-- V-D7 -/
theorem test_sub : decodeWindow [0x15, 0x83] =
    .ok (dbl .sub .word (vop (.constant 1)) (rop 5 .registerDirect) 2) ∧
    render (dbl .sub .word (vop (.constant 1)) (rop 5 .registerDirect) 2) = "SUB 1, R5" := by decide
/-- V-D9 -/
theorem test_cmp : decodeWindow [0xB2, 0x90, 0xFF, 0x00, 0x20, 0x01] =
    .ok (dbl .cmp .word (vop (.immediate 255)) (rop 2 (.absolute 288)) 6) ∧
    render (dbl .cmp .word (vop (.immediate 255)) (rop 2 (.absolute 288)) 6) = "CMP #255, &288" := by decide
/-- V-D11 -/
theorem test_dadd : decodeWindow [0x79, 0xA2] =
    .ok (dbl .dadd .byte (vop (.constant 8)) (rop 9 .registerDirect) 2) ∧
    render (dbl .dadd .byte (vop (.constant 8)) (rop 9 .registerDirect) 2) = "DADD.B 8, R9" := by decide
/-- V-D13 -/
theorem test_bit : decodeWindow [0xB2, 0xB3, 0x21, 0x00] =
    .ok (dbl .bit .word (vop (.constant (-1))) (rop 2 (.absolute 33)) 4) ∧
    render (dbl .bit .word (vop (.constant (-1))) (rop 2 (.absolute 33)) 4) = "BIT -1, &33" := by decide
/-- V-D14 -/
theorem test_bic : decodeWindow [0x32, 0xC2] =
    .ok (dbl .bic .word (vop (.constant 8)) (rop 2 .registerDirect) 2) ∧
    render (dbl .bic .word (vop (.constant 8)) (rop 2 .registerDirect) 2) = "BIC 8, R2" := by decide
/-- V-D15 -/
theorem test_bis : decodeWindow [0xD0, 0xD0, 0x06, 0x00, 0xFA, 0xFF] =
    .ok (dbl .bis .byte (rop 0 (.indexed 6)) (rop 0 (.indexed (-6))) 6) ∧
    render (dbl .bis .byte (rop 0 (.indexed 6)) (rop 0 (.indexed (-6))) 6) = "BIS.B 6(R0), -6(R0)" := by decide
/-- V-D18 -/
theorem test_xor : decodeWindow [0x77, 0xE1] =
    .ok (dbl .xor .byte (rop 1 (.registerIndirectAutoIncrement 1)) (rop 7 .registerDirect) 2) ∧
    render (dbl .xor .byte (rop 1 (.registerIndirectAutoIncrement 1)) (rop 7 .registerDirect) 2) = "XOR.B @R1+, R7" := by decide
/-- V-D22 -/
theorem test_and : decodeWindow [0xFF, 0xFF, 0xFF, 0xFF, 0xFF, 0xFF] =
    .ok (dbl .and .byte (rop 15 (.registerIndirectAutoIncrement 1)) (rop 15 (.indexed (-1))) 4) ∧
    render (dbl .and .byte (rop 15 (.registerIndirectAutoIncrement 1)) (rop 15 (.indexed (-1))) 4) = "AND.B @R15+, -1(R15)" := by decide
/-- V-S22 -/
theorem test_rrc : decodeWindow [0x13, 0x10, 0xEF, 0xBE] =
    .ok (sgl .rrc .word (vop (.constant 1)) 2) ∧
    render (sgl .rrc .word (vop (.constant 1)) 2) = "RRC 1" := by decide
/-- V-S5 -/
theorem test_swpb : decodeWindow [0xF8, 0x10] =
    .ok (sgl .swpb .word (rop 8 (.registerIndirectAutoIncrement 2)) 2) ∧
    render (sgl .swpb .word (rop 8 (.registerIndirectAutoIncrement 2)) 2) = "SWPB @R8+" := by decide
/-- V-S6 -/
theorem test_rra : decodeWindow [0x19, 0x11, 0x04, 0x00] =
    .ok (sgl .rra .word (rop 9 (.indexed 4)) 4) ∧
    render (sgl .rra .word (rop 9 (.indexed 4)) 4) = "RRA 4(R9)" := by decide
/-- V-S9 -/
theorem test_sxt : decodeWindow [0x92, 0x11, 0x02, 0x02] =
    .ok (sgl .sxt .word (rop 2 (.absolute 514)) 4) ∧
    render (sgl .sxt .word (rop 2 (.absolute 514)) 4) = "SXT &514" := by decide
/-- V-S11 -/
theorem test_push : decodeWindow [0x74, 0x12] =
    .ok (sgl .push .byte (rop 4 (.registerIndirectAutoIncrement 1)) 2) ∧
    render (sgl .push .byte (rop 4 (.registerIndirectAutoIncrement 1)) 2) = "PUSH.B @R4+" := by decide
/-- V-S18 -/
theorem test_call : decodeWindow [0x90, 0x12, 0xF0, 0xFF] =
    .ok (sgl .call .word (rop 0 (.indexed (-16))) 4) ∧
    render (sgl .call .word (rop 0 (.indexed (-16))) 4) = "CALL -16(R0)" := by decide
/-- V-S20 -/
theorem test_reti : decodeWindow [0x7F, 0x13, 0xFF, 0xFF] =
    .ok reti ∧
    render reti = "RETI" := by decide
/-- V-J15 -/
theorem test_jne : decodeWindow [0x00, 0x22] =
    .ok (jump .jne 0 (-512) (-1024)) ∧
    render (jump .jne 0 (-512) (-1024)) = "JNE $-1024" := by decide
/-- V-J2 -/
theorem test_jeq : decodeWindow [0x00, 0x24] =
    .ok (jump .jeq 1 0 0) ∧
    render (jump .jeq 1 0 0) = "JEQ $0" := by decide
/-- V-J3 -/
theorem test_jnc : decodeWindow [0x01, 0x28] =
    .ok (jump .jnc 2 1 2) ∧
    render (jump .jnc 2 1 2) = "JNC $2" := by decide
/-- V-J4 -/
theorem test_jc : decodeWindow [0xFF, 0x2D] =
    .ok (jump .jc 3 511 1022) ∧
    render (jump .jc 3 511 1022) = "JC $1022" := by decide
/-- V-J5 -/
theorem test_jn : decodeWindow [0x00, 0x32] =
    .ok (jump .jn 4 (-512) (-1024)) ∧
    render (jump .jn 4 (-512) (-1024)) = "JN $-1024" := by decide
/-- V-J6 -/
theorem test_jge : decodeWindow [0xFF, 0x37] =
    .ok (jump .jge 5 (-1) (-2)) ∧
    render (jump .jge 5 (-1) (-2)) = "JGE $-2" := by decide
/-- V-J12 -/
theorem test_jl : decodeWindow [0x00, 0x3B] =
    .ok (jump .jl 6 (-256) (-512)) ∧
    render (jump .jl 6 (-256) (-512)) = "JL $-512" := by decide
/-- V-J10 -/
theorem test_jmp : decodeWindow [0xFF, 0x3F, 0x34, 0x12] =
    .ok (jump .jmp 7 (-1) (-2)) ∧
    render (jump .jmp 7 (-1) (-2)) = "JMP $-2" := by decide

/-- V-D17, V-D21, V-D27: destination register 3. -/
theorem test_destination_register3 :
    decodeWindow [0x03, 0x43] = .ok (dbl .mov .word (vop (.constant 0)) (vop (.constant 0)) 2) ∧
    decodeWindow [0x83, 0x45, 0xAA, 0xAA] = .ok (dbl .mov .word (rop 5 .registerDirect) (vop (.constant 1)) 2) ∧
    decodeWindow [0xF3, 0x43] = .ok (dbl .mov .byte (vop (.constant (-1))) (vop (.constant 1)) 2) := by decide

/-- V-D19: an Immediate under Byte size keeps all 16 bits; V-T13: it is unsigned. -/
theorem test_immediate_whole :
    decodeWindow [0x74, 0xF0, 0xF0, 0x01] = .ok (dbl .and .byte (vop (.immediate 496)) (rop 4 .registerDirect) 4) ∧
    decodeWindow [0x32, 0x50, 0xFF, 0xFF] = .ok (dbl .add .word (vop (.immediate 65535)) (rop 2 .registerDirect) 4) := by
  decide

/-- V-D10, V-D12: register indirect, and the constant 4. -/
theorem test_indirect_and_constant4 :
    decodeWindow [0x25, 0xA4] = .ok (dbl .dadd .word (rop 4 .registerIndirect) (rop 5 .registerDirect) 2) ∧
    decodeWindow [0x64, 0xB2] = .ok (dbl .bit .byte (vop (.constant 4)) (rop 4 .registerDirect) 2) := by decide

/-- V-S3 and V-S4: bit 6 of SWPB is ignored. -/
theorem test_swpb_ignores_bit6 : decodeWindow [0x87, 0x10] = decodeWindow [0xC7, 0x10] := by decide

/-- The V-RS table's sign-extension line: 0, 1, 32767, −32768, −2, −1. -/
theorem test_sign_extension : [0, 1, 0x7FFF, 0x8000, 0xFFFE, 0xFFFF].map (signed 16) =
    [0, 1, 32767, -32768, -2, -1] := by decide

/-- The offset-extraction line of the V-J vectors. -/
theorem test_jump_offset : ([0x000, 0x0FF, 0x1FF, 0x200, 0x2FF, 0x3FF].map jumpOffset) =
    [(0, 0), (255, 510), (511, 1022), (-512, -1024), (-257, -514), (-1, -2)] := by decide

/-! ## Errors (V-E, P5) and the cursor (V-W) -/

/-- V-E1, V-E2, V-E10, V-E11, V-E12, V-E19. -/
theorem test_errors : decodeWindow [] = .error (.truncatedInput 2 0) ∧
    decodeWindow [0x06] = .error (.truncatedInput 2 1) ∧
    decodeWindow [0x00, 0x00, 0xFF] = .error (.unknownOpcode 0) ∧
    decodeWindow [0x19, 0x11] = .error (.truncatedInput 2 0) ∧
    decodeWindow [0x19, 0x11, 0x04] = .error (.truncatedInput 2 1) ∧
    decodeWindow [0x80, 0x13, 0x00] = .error (.unknownOpcode 0x1380) := by decide

/-- P5: one six-byte instruction under every window length. -/
theorem test_every_length :
    (List.range 6).map (fun n => decodeWindow ([0xB2, 0x90, 0xFF, 0x00, 0x20, 0x01].take n)) =
      [.error (.truncatedInput 2 0), .error (.truncatedInput 2 1), .error (.truncatedInput 2 0),
       .error (.truncatedInput 2 1), .error (.truncatedInput 2 0), .error (.truncatedInput 2 1)] := by decide

/-- V-W3 at its three cursor positions, V-W8. -/
theorem test_take_word :
    takeWord Config.block (at' 0 [0x34, 0x12, 0xCD, 0xAB]) = .ok 0x1234 (at' 2 [0x34, 0x12, 0xCD, 0xAB]) ∧
    takeWord Config.block (at' 2 [0x34, 0x12, 0xCD, 0xAB]) = .ok 0xABCD (at' 4 [0x34, 0x12, 0xCD, 0xAB]) ∧
    takeWord Config.block (at' 4 [0x34, 0x12, 0xCD, 0xAB]) =
      .raised (.truncatedInput 2 0) (at' 4 [0x34, 0x12, 0xCD, 0xAB]) ∧
    takeWord Config.block (at' 0 [0xFF, 0x00]) = .ok 0x00FF (at' 2 [0xFF, 0x00]) := by decide

/-- V-W7 and the example of R66. -/
theorem test_peek_word :
    peekWord Config.block 2 (at' 0 [0x34, 0x12, 0xCD, 0xAB]) = .ok 0xABCD (at' 0 [0x34, 0x12, 0xCD, 0xAB]) ∧
    peekWord Config.block 2 (at' 0 [0x36, 0x40, 0x04, 0x00]) = .ok 4 (at' 0 [0x36, 0x40, 0x04, 0x00]) := by decide

/-- The open alternative of D9 counts from the window start: V-E15 would be `needed = 6`, `available = 4`. -/
theorem test_cumulative_payload : truncatedAt ⟨false, .cumulative, 10⟩ 4 4 = .truncatedInput 6 4 ∧
    truncatedAt ⟨false, .cumulative, 10⟩ 0 1 = .truncatedInput 2 1 := by decide

/-- The condition names of R113, first and last. -/
theorem test_condition_names : conditionName 0 = "not-equal/not-zero" ∧ conditionName 7 = "unconditional" := by decide

/-! ## Running from reset -/

/-- The first step after reset, with nothing presented (V-E1). -/
theorem test_step_at_reset : step State.reset = .next ⟨Memory.empty, 0, .error (.truncatedInput 2 0)⟩ := rfl

/-- The table's numbering: a 16-bit row's bits are the first word, the words after it zeros. -/
theorem test_table_word : decodeTableWord 16 0x4036 = some (.mov ⟨0, .f00, .word, .f11, 6⟩) ∧
    decodeTableWord 16 0x0000 = none := by decide

/-- A step runs the placed instruction, its extension word 0. -/
theorem test_withFetchWord : outcomeOf (step (State.reset.withFetchWord 16 0x4036)) =
    .ok (dbl .mov .word (vop (.immediate 0)) (rop 6 .registerDirect) 4) := by decide

/-! ## What well-formedness refuses -/

/-- A destination never uses indirect or autoincrement modes (R82). -/
theorem test_wf_destination_field : Instr.wf (.mov ⟨5, .f10, .word, .f00, 6⟩) = false ∧
    Instr.wf (.and ⟨5, .f11, .byte, .f00, 6⟩) = false ∧ Instr.wf (.and ⟨5, .f01, .byte, .f11, 6⟩) = true := by decide

/-- Each operand check refuses an operand the others accept (R16, R17, R19). -/
theorem test_wf_operand :
    (vop .registerDirect).regOk = false ∧ (rop 1 (.constant 4)).regOk = false ∧ (rop 5 (.absolute 4)).regOk = false ∧
    (rop 5 (.indexed 32768)).payloadOk = false ∧ (vop (.constant 3)).payloadOk = false ∧
    (vop (.immediate 65536)).payloadOk = false ∧ (rop 5 (.registerIndirectAutoIncrement 4)).payloadOk = false ∧
    (rop 3 .registerDirect).producedOk = false ∧ (rop 2 (.indexed 0)).producedOk = false ∧
    (rop 0 (.registerIndirectAutoIncrement 2)).producedOk = false ∧
    (rop 5 (.registerIndirectAutoIncrement 2)).incOk .byte = false ∧
    (rop 5 .registerIndirect).destinationOk = false ∧ (vop (.constant 2)).destinationOk = false := by decide

/-- Each record check refuses a record (R18 to R20, R29). -/
theorem test_wf_record :
    InstrRecord.formatOk ⟨.mov, .singleOperand, .word, none, none, none, none, none, 2⟩ = false ∧
    InstrRecord.presenceOk ⟨.mov, .doubleOperand, .word, none, some (rop 6 .registerDirect), none, none, none, 2⟩ = false ∧
    InstrRecord.presenceOk ⟨.reti, .singleOperand, .word, none, some (rop 6 .registerDirect), none, none, none, 2⟩ = false ∧
    InstrRecord.operandsOk (dbl .mov .word (rop 5 .registerDirect) (rop 6 .registerIndirect) 2) = false ∧
    InstrRecord.sizeOk (sgl .swpb .byte (rop 6 .registerDirect) 2) = false ∧
    InstrRecord.conditionOk (jump .jeq 0 1 2) = false ∧
    InstrRecord.offsetsOk (jump .jeq 1 1 1) = false ∧ InstrRecord.offsetsOk (jump .jeq 1 512 1024) = false ∧
    InstrRecord.lengthOk (dbl .mov .word (vop (.immediate 4)) (rop 6 .registerDirect) 2) = false ∧
    InstrRecord.wf (dbl .mov .word (vop (.immediate 4)) (rop 6 .registerDirect) 4) = true := by decide

/-- The canonical form refuses a listed zero byte, a cell beyond the window, and cells out of order. -/
theorem test_wf_window : Memory.wf ⟨2, [(0, 0)]⟩ = false ∧ Memory.wf ⟨2, [(2, 1)]⟩ = false ∧
    Memory.wf ⟨2, [(1, 1), (0, 1)]⟩ = false ∧ Memory.wf ⟨2, [(0, 1), (1, 1)]⟩ = true := by decide

/-- The invariant refuses a cursor at 3 and a `ReservedEncoding` outcome. -/
theorem test_wf_state : State.Inv ⟨Memory.empty, 3, .pending⟩ = false ∧
    State.Inv ⟨Memory.empty, 2, .error (.reservedEncoding 0x1300)⟩ = false := by decide

/-- "Symbolic" is Indexed on register 0 and nothing else (R77). -/
theorem test_symbolic : (rop 0 (.indexed 6)).isSymbolic = true ∧ (rop 4 (.indexed 6)).isSymbolic = false ∧
    (rop 0 .registerDirect).isSymbolic = false := by decide

/-! ## Cases that meet the hypotheses of the obligations -/

/-- TakeWordReadsLittleEndianAndAdvances, PeekWordReadsWithoutAdvancing: exactly two bytes left, and one. -/
theorem test_meets_cursor : 2 ≤ (at' 2 [1, 2, 3, 4]).window.len - (at' 2 [1, 2, 3, 4]).pos ∧
    (at' 2 [1, 2, 3]).window.len - (at' 2 [1, 2, 3]).pos < 2 ∧
    2 ≤ (at' 0 [1, 2, 3, 4]).window.len - ((at' 0 [1, 2, 3, 4]).pos + 2) ∧
    (at' 0 [1, 2, 3, 4]).window.len - ((at' 0 [1, 2, 3, 4]).pos + 3) < 2 := by decide

/-- CanonicalWindowsWithEqualBytesAreEqual. -/
theorem test_meets_canonical : (Memory.ofBytes [1, 0, 2]).wf = true ∧ Memory.wf ⟨3, [(0, 1), (2, 2)]⟩ = true ∧
    (Memory.ofBytes [1, 0, 2]).len = 3 ∧ ∀ a, (Memory.ofBytes [1, 0, 2]).byte a = Memory.byte ⟨3, [(0, 1), (2, 2)]⟩ a :=
  ⟨by decide, by decide, rfl, fun _ => rfl⟩

/-- DecodeOfEncodeIsTheInstruction, EncodeOfDecodeAgreesOnConsultedBits, LookupNeverFailsAfterClassification: one of
each family, all fields at their largest. -/
theorem test_meets_encoding : Instr.wf (.and ⟨15, .f01, .byte, .f11, 15⟩) = true ∧
    decodeWord 0xFFFF = .ok (.and ⟨15, .f01, .byte, .f11, 15⟩) ∧ classify 0xFFFF = some .doubleOperand ∧
    Instr.wf (.rrc ⟨.byte, .f11, 15⟩) = true ∧ decodeWord 0x107F = .ok (.rrc ⟨.byte, .f11, 15⟩) ∧
    classify 0x137F = some .singleOperand ∧ Instr.wf (.jmp 0x3FF) = true ∧ decodeWord 0x3FFF = .ok (.jmp 0x3FF) ∧
    classify 0x3FFF = some .conditionalJump := ⟨rfl, rfl, rfl, rfl, rfl, rfl, rfl, rfl, rfl⟩

/-- AliasedFirstWordsAreThoseOfIgnoredBits: RETI at both ends of its range, and SWPB with and without bit 6. -/
theorem test_meets_aliases : decodeWindow (bytesOfWord 0x1300 ++ []) = .ok reti ∧
    SameConsulted .reti 0x137F 0x1300 ∧ ¬ SameConsulted .reti 0x1380 0x1300 ∧
    decodeWindow (bytesOfWord 0x1087 ++ []) = .ok (sgl .swpb .word (rop 7 .registerDirect) 2) ∧
    SameConsulted .swpb 0x10C7 0x1087 ∧ ¬ SameConsulted .swpb 0x1086 0x1087 ∧ ¬ SameConsulted .jmp 0x3FFE 0x3FFF := by
  unfold SameConsulted
  decide

/-- ResolverFollowsTheDispatchTable, its three clauses; OperandConsumesAWordExactlyByItsMode both ways. -/
theorem test_meets_resolver : extWords .f01 3 = 0 ∧ extWords .f01 2 = 1 ∧ extWords .f11 0 = 1 ∧
    (at' 2 [0, 0, 7, 0]).pos + 2 ≤ (at' 2 [0, 0, 7, 0]).window.len ∧
    (at' 2 [0, 0, 7]).window.len < (at' 2 [0, 0, 7]).pos + 2 ∧
    resolve Config.block .f01 2 .word (at' 2 [0, 0, 7, 0]) = .ok (rop 2 (.absolute 7)) (at' 4 [0, 0, 7, 0]) ∧
    resolve Config.block .f01 3 .word (at' 2 [0, 0]) = .ok (vop (.constant 1)) (at' 2 [0, 0]) := by decide

/-- ExtensionWordIsReadAsItsModeSays: the word 0xFFFE under each of the three modes (the V-RS table). -/
theorem test_meets_extension_word :
    resolve Config.block .f01 4 .byte (at' 2 [0, 0, 0xFE, 0xFF]) = .ok (rop 4 (.indexed (-2))) (at' 4 [0, 0, 0xFE, 0xFF]) ∧
    resolve Config.block .f01 2 .byte (at' 2 [0, 0, 0xFE, 0xFF]) =
      .ok (rop 2 (.absolute 65534)) (at' 4 [0, 0, 0xFE, 0xFF]) ∧
    resolve Config.block .f11 0 .byte (at' 2 [0, 0, 0xFE, 0xFF]) =
      .ok (vop (.immediate 65534)) (at' 4 [0, 0, 0xFE, 0xFF]) := by decide

/-- ResolverErrorsPropagateAtOnce: a first operand that raises, and a destination that raises after its source
resolved, under both values of each parameter; and the words that are missing. -/
theorem test_meets_propagation :
    extWords .f01 4 = 1 ∧ takeWord Config.block (at' 2 [0, 0, 7]) = .raised (.truncatedInput 2 1) (at' 2 [0, 0, 7]) ∧
    takeWord ⟨true, .cumulative, 10⟩ (at' 4 [0, 0, 7, 0]) = .raised (.truncatedInput 6 4) (at' 4 [0, 0, 7, 0]) ∧
    resolve Config.block .f01 4 .word (at' 2 [0, 0, 7]) = .raised (.truncatedInput 2 1) (at' 2 [0, 0, 7]) ∧
    resolve Config.block .f11 0 .word (at' 2 [0, 0, 7, 0]) = .ok (vop (.immediate 7)) (at' 4 [0, 0, 7, 0]) ∧
    resolveDestination ⟨true, .cumulative, 10⟩ .f01 3 .word (at' 4 [0, 0, 7, 0]) =
      .raised (.truncatedInput 6 4) (at' 4 [0, 0, 7, 0]) := by decide

/-- SizeChoosesOnlyTheIncrement: a case of each clause, at the registers where they meet. -/
theorem test_meets_size : ¬ (AddrField.f11 = .f11 ∧ (0 : Reg) ≠ 0 ∧ (0 : Reg) ≠ 2 ∧ (0 : Reg) ≠ 3) ∧
    (1 : Reg) ≠ 0 ∧ (1 : Reg) ≠ 2 ∧ (1 : Reg) ≠ 3 ∧ (4 : Reg) ≠ 3 := by decide

/-- DestinationIsOneOfTheFiveShapes: one window of each shape. -/
theorem test_meets_five_shapes :
    ∃ r1 r2 r3 r4 r5, decodeWindow [0x06, 0x45] = .ok r1 ∧ decodeWindow [0x03, 0x43] = .ok r2 ∧
      decodeWindow [0xF6, 0x44, 0x02, 0x00] = .ok r3 ∧ decodeWindow [0x82, 0x43, 0x00, 0x02] = .ok r4 ∧
      decodeWindow [0x83, 0x45] = .ok r5 ∧ [r1, r2, r3, r4, r5].all (·.format = .doubleOperand) = true :=
  ⟨_, _, _, _, _, rfl, rfl, rfl, rfl, rfl, rfl⟩

/-- ConstantGeneratorsIgnoreTheBytesAfter: a source of register 3, one of register 2, and a single operand of each,
with its three clauses. -/
theorem test_meets_constant_generators :
    ((1, 3, 1) : Nat × Nat × Int) ∈ [(0, 3, 0), (1, 3, 1), (2, 3, 2), (3, 3, -1), (2, 2, 4), (3, 2, 8)] ∧
    slice 0x8315 5 4 = 1 ∧ 0x4000 ≤ (0x8315 : Word).toNat ∧ slice 0x8315 11 8 = 3 ∧ slice 0x8315 7 7 = 0 ∧
    (∃ r, decodeWindow (bytesOfWord 0x8315 ++ [0xAA]) = .ok r) ∧
    ((3, 2, 8) : Nat × Nat × Int) ∈ [(0, 3, 0), (1, 3, 1), (2, 3, 2), (3, 3, -1), (2, 2, 4), (3, 2, 8)] ∧
    slice 0x1232 5 4 = 3 ∧ 0x1000 ≤ (0x1232 : Word).toNat ∧ (0x1232 : Word).toNat < 0x1300 ∧ slice 0x1232 3 0 = 2 ∧
    slice 0xA279 5 4 = 3 ∧ slice 0xA279 11 8 = 2 ∧ slice 0xA279 7 7 = 0 ∧
    slice 0x1013 5 4 = 1 ∧ slice 0x1013 3 0 = 3 :=
  ⟨by decide, rfl, by decide, rfl, rfl, ⟨_, rfl⟩, by decide, rfl, by decide, by decide, rfl, rfl, rfl, rfl, rfl, rfl⟩

/-- Beyond base 10 the model's own digits (notes/assumptions/19.md); in base 10 the largest Immediate (V-T13). -/
theorem test_numeral_bases : numeral Config.block 65535 = "65535".toList ∧
    numeral ⟨false, .atCursor, 16⟩ (-250) = "-fa".toList := by decide

/-- DestinationParameterTouchesRegister3Only: register 3 with `Ad = 0`, register 2 with `Ad = 1`, and exactly one
word left for the excepted case. -/
theorem test_meets_destination_parameter : ¬ (AddrField.f00 = .f01 ∧ (3 : Reg) = 3) ∧
    ¬ (AddrField.f01 = .f01 ∧ (2 : Reg) = 3) ∧
    (at' 2 [0x83, 0x45, 7, 0]).pos + 2 ≤ (at' 2 [0x83, 0x45, 7, 0]).window.len := by decide

/-- PayloadParameterChangesNoRecord: a record that both sides leave. -/
theorem test_meets_payload : ∃ t r, t.out = .ok r ∧
    assembleDouble ⟨false, .atCursor, 10⟩ .cmp ⟨0, .f01, .word, .f11, 2⟩ (at' 2 [0xB2, 0x90, 0xFF, 0, 0x20, 1]) = .next t :=
  ⟨_, _, rfl, rfl⟩

/-- DoubleOperandInstructionsComplete: both operands take a word and the window holds exactly both; one that takes
none in a window of the first word. DoubleOperandInstructionsTruncate: the source's word cut, and the destination's.
SizedSingleOperandInstructionsComplete, UnsizedSingleOperandInstructionsComplete and
SingleOperandInstructionsTruncate: with the word and without. -/
theorem test_meets_completion :
    let f : DoubleFields := ⟨0, .f01, .word, .f11, 2⟩
    extWords f.srcField f.srcReg = 1 ∧ extWords f.dstField f.dstReg = 1 ∧
    (at' 2 [0xB2, 0x90, 0xFF, 0, 0x20, 1]).pos + 2 ≤ (at' 2 [0xB2, 0x90, 0xFF, 0, 0x20, 1]).window.len ∧
    afterSource f (at' 2 [0xB2, 0x90, 0xFF, 0, 0x20, 1]) + 2 ≤ (at' 2 [0xB2, 0x90, 0xFF, 0, 0x20, 1]).window.len ∧
    (at' 2 [0xB2, 0x90, 0xFF]).window.len < (at' 2 [0xB2, 0x90, 0xFF]).pos + 2 ∧
    (at' 2 [0xB2, 0x90, 0xFF, 0]).pos + 2 ≤ (at' 2 [0xB2, 0x90, 0xFF, 0]).window.len ∧
    (at' 2 [0xB2, 0x90, 0xFF, 0]).window.len < afterSource f (at' 2 [0xB2, 0x90, 0xFF, 0]) + 2 ∧
    extWords .f00 5 = 0 ∧ extWords .f10 5 = 0 := by decide

/-- StepRunsTheDecodedInstruction: bytes that decode, an unknown word, and a window of one byte. -/
theorem test_meets_step : decodeBytes (at' 6 [0xF9, 0x23]).window.toBytes = .ok (.jne 0x3F9) ∧
    decodeBytes (at' 6 [0x80, 0x13]).window.toBytes = .error (.unknownOpcode 0x1380) ∧
    decodeBytes (at' 6 [0x80]).window.toBytes = .error (.truncatedInput 2 1) := ⟨rfl, rfl, rfl⟩

/-- DoubleOperandWindowGivesItsRecord, its three clauses at the lengths where they meet (6 and 5, 4 and 3). -/
theorem test_meets_double_window : 0x4 ≤ slice 0x90B2 15 12 ∧
    extWords (AddrField.ofNumber (slice 0x90B2 5 4)) (regField 0x90B2 8) = 1 ∧
    extWords (AddrField.ofNumber (slice 0x90B2 7 7)) (regField 0x90B2 0) = 1 ∧
    (bytesOfWord 0x90B2 ++ [0xFF, 0, 0x20, 1]).length = 6 ∧ (bytesOfWord 0x90B2 ++ [0xFF]).length < 4 ∧
    4 ≤ (bytesOfWord 0x90B2 ++ [0xFF, 0]).length ∧ (bytesOfWord 0x90B2 ++ [0xFF, 0, 0x20]).length < 6 := by decide

/-- SingleOperandWindowGivesItsRecord at both ends of its range and its three clauses; JumpWindowGivesItsRecord at
both ends of its range. -/
theorem test_meets_single_and_jump_window : 0x1000 ≤ (0x1000 : Word).toNat ∧ (0x137F : Word).toNat ≤ 0x137F ∧
    slice 0x137F 9 7 = 6 ∧ slice 0x1119 9 7 = 2 ∧
    extWords (AddrField.ofNumber (slice 0x1119 5 4)) (regField 0x1119 0) = 1 ∧
    2 + 2 * 1 ≤ (bytesOfWord 0x1119 ++ [4, 0]).length ∧ (bytesOfWord 0x1119 ++ [4]).length < 2 + 2 * 1 ∧
    slice 0x2000 15 13 = 0b001 ∧ slice 0x3FFF 15 13 = 0b001 := by decide

/-- ErrorsComeInTheOrderOfTheAlgorithm: a window of each of its five clauses, at the lengths where they meet. -/
theorem test_meets_error_order : ([0x06] : List Byte).length < 2 ∧
    lengthOfWord (firstWord [0x00, 0x00]) = none ∧
    lengthOfWord (firstWord [0xB6, 0x40, 0x34]) = some 6 ∧ sourceExt (firstWord [0xB6, 0x40, 0x34]) = 1 ∧
    ([0xB6, 0x40, 0x34] : List Byte).length < 2 + 2 * 1 ∧ 2 + 2 * 1 ≤ ([0xB6, 0x40, 0x34, 0x12] : List Byte).length ∧
    ([0xB6, 0x40, 0x34, 0x12, 0x09] : List Byte).length < 6 ∧
    6 ≤ ([0xB6, 0x40, 0x34, 0x12, 0x09, 0x00] : List Byte).length := by decide

/-- StepKeepsTheInvariant and ReservedEncodingIsNeverRaised: a step from a state no run reaches (the cursor at 5). -/
theorem test_meets_invariant : (at' 5 [0x06, 0x45]).window.wf = true ∧ ∃ t, step (at' 5 [0x06, 0x45]) = .next t :=
  ⟨by decide, _, rfl⟩

/-- LengthLaw, both clauses at the exact length; V-D9. -/
theorem test_meets_length_law :
    (∃ t r, step (at' 0 [0xB2, 0x90, 0xFF, 0, 0x20, 1]) = .next t ∧ t.out = .ok r) ∧
    lengthOfWord ((at' 0 [0xB2, 0x90, 0xFF, 0, 0x20, 1]).wordAt 0) = some 6 ∧
    6 ≤ (at' 0 [0xB2, 0x90, 0xFF, 0, 0x20, 1]).window.len :=
  ⟨⟨_, _, rfl, rfl⟩, by decide, by decide⟩

/-- ActivationDependsOnTheWindowAlone: states with one window that differ in all else. -/
theorem test_meets_window_alone : (at' 0 [0x06]).window = (State.mk (Memory.ofBytes [0x06]) 6 (.ok reti)).window ∧
    at' 0 [0x06] ≠ State.mk (Memory.ofBytes [0x06]) 6 (.ok reti) := by decide

/-- PrefixIndependence: V-E17 and V-E18. -/
theorem test_meets_prefix_independence :
    ∃ r, decodeWindow [0xB6, 0x40, 0x34, 0x12, 0x09, 0x00] = .ok r ∧
      decodeWindow [0xB6, 0x40, 0x34, 0x12, 0x09, 0x00, 0x77] = .ok r := ⟨_, rfl, rfl⟩

/-- ErrorsIgnoreTheBytesAfterTheFirstWord: V-E4 with V-E10, and V-E12 with another last byte. -/
theorem test_meets_errors_ignore : decodeWindow [0x00, 0x00] = .error (.unknownOpcode 0) ∧
    ([0x04] : List Byte).length = ([0x99] : List Byte).length ∧
    decodeWindow [0x19, 0x11, 0x04] = .error (.truncatedInput 2 1) := by decide

/-- SixLanesGiveTheOutcomeOfTheWholeSequence: two bytes with lanes beyond the count set, and seven with a count of 9. -/
theorem test_meets_six_lanes :
    ([0x06, 0x45] : List Byte).take 6 = (#v[0x06, 0x45, 1, 2, 3, 4] : Vector Byte 6).toList.take 2 ∧
    ([0xB6, 0x40, 0x34, 0x12, 0x09, 0x00, 0x77] : List Byte).take 6 =
      (#v[0xB6, 0x40, 0x34, 0x12, 0x09, 0x00] : Vector Byte 6).toList.take 9 := by decide

/-- EveryWellFormedRecordIsDecodedFromItsBytes: a well-formed record of each format. -/
theorem test_meets_well_formed_records :
    (dbl .bis .byte (rop 0 (.indexed 6)) (rop 0 (.indexed (-6))) 6).wf = true ∧
    (sgl .push .byte (vop (.constant 1)) 2).wf = true ∧ reti.wf = true ∧ (jump .jn 4 (-512) (-1024)).wf = true := by
  decide

/-- StatusOutputNamesTheOutcome: each of its three status values (R149). -/
theorem test_meets_status : (decodeWindow [0x06, 0x45]).status = some 0 ∧ (decodeWindow [0x06]).status = some 1 ∧
    (decodeWindow [0x00, 0x00]).status = some 2 ∧ (decodeWindow [0x80, 0x13]).errRawWord = some 0x1380 ∧
    (decodeWindow [0x06]).record = none := by decide

/-- OperandTextFollowsItsTemplate: an operand of each mode, register 15 and the widest payloads among them. -/
theorem test_meets_operand_text :
    [rop 15 .registerDirect, rop 0 (.indexed (-32768)), rop 10 .registerIndirect,
      rop 1 (.registerIndirectAutoIncrement 1), vop (.immediate 65535), rop 2 (.absolute 65535),
      vop (.constant (-1))].all (·.regOk) = true := by decide

/-- RenderFollowsTheTemplate: a hand-built record that `decode` never outputs (R125), a destination of RegisterIndirect. -/
theorem test_meets_formatter_domain :
    let r := dbl .mov .word (rop 5 .registerDirect) (rop 6 .registerIndirect) 2
    InFormatterDomain r ∧ render r = "MOV R5, @R6" :=
  ⟨.inr ⟨rfl, rfl, rfl, rfl, by rintro _ ⟨⟩; rfl, by rintro _ ⟨⟩; rfl⟩, by decide⟩

/-- RenderFollowsTheTemplate: a record of each clause; RenderTellsRecordsApart: two records that differ in their
operands' order only. -/
theorem test_meets_render : ∃ r1 r2 r3 r4 r5, decodeWindow [0x06, 0x45] = .ok r1 ∧ r1.format = .doubleOperand ∧
    decodeWindow [0x0A, 0x12] = .ok r2 ∧ r2.format = .singleOperand ∧ r2.mnemonic ≠ .reti ∧
    decodeWindow [0x00, 0x13] = .ok r3 ∧ r3.mnemonic = .reti ∧
    decodeWindow [0x02, 0x3C] = .ok r4 ∧ r4.format = .conditionalJump ∧
    decodeWindow [0x05, 0x46] = .ok r5 ∧ r1 ≠ r5 :=
  ⟨_, _, _, _, _, rfl, rfl, rfl, rfl, by decide, rfl, rfl, rfl, rfl, rfl, by decide⟩

end Sys2Proof.Tests
end

section
/-! What makes an operand well formed, one equivalence for each addressing mode (R16, R17). -/

namespace Sys2Proof

variable {size : OpSize} {r : Option Reg}

@[simp] theorem Operand.wf_registerDirect : Operand.wf size ⟨r, .registerDirect⟩ = true ↔
    ∃ reg, r = some reg ∧ reg ≠ 3 := by
  cases r <;> simp [Operand.wf, Operand.regOk, Operand.payloadOk, Operand.producedOk, Operand.incOk]

@[simp] theorem Operand.wf_indexed {off : Int} : Operand.wf size ⟨r, .indexed off⟩ = true ↔
    ∃ reg, r = some reg ∧ reg ≠ 2 ∧ reg ≠ 3 ∧ -32768 ≤ off ∧ off ≤ 32767 := by
  cases r with
  | none => simp [Operand.wf, Operand.regOk]
  | some reg =>
    simp [Operand.wf, Operand.regOk, Operand.payloadOk, Operand.producedOk, Operand.incOk]
    tauto

@[simp] theorem Operand.wf_registerIndirect : Operand.wf size ⟨r, .registerIndirect⟩ = true ↔
    ∃ reg, r = some reg ∧ reg ≠ 2 ∧ reg ≠ 3 := by
  cases r <;> simp [Operand.wf, Operand.regOk, Operand.payloadOk, Operand.producedOk, Operand.incOk]

@[simp] theorem Operand.wf_autoIncrement {inc : Nat} : Operand.wf size ⟨r, .registerIndirectAutoIncrement inc⟩ = true ↔
    ∃ reg, r = some reg ∧ reg ≠ 0 ∧ reg ≠ 2 ∧ reg ≠ 3 ∧ inc = Machine.incOf size := by
  cases r with
  | none => simp [Operand.wf, Operand.regOk]
  | some reg =>
    cases size <;>
      simp [Operand.wf, Operand.regOk, Operand.payloadOk, Operand.producedOk, Operand.incOk, Machine.incOf] <;> tauto

@[simp] theorem Operand.wf_immediate {val : Nat} : Operand.wf size ⟨r, .immediate val⟩ = true ↔
    r = none ∧ val ≤ 65535 := by
  simp [Operand.wf, Operand.regOk, Operand.payloadOk, Operand.producedOk, Operand.incOk]

@[simp] theorem Operand.wf_absolute {addr : Nat} : Operand.wf size ⟨r, .absolute addr⟩ = true ↔
    r = some 2 ∧ addr ≤ 65535 := by
  simp [Operand.wf, Operand.regOk, Operand.payloadOk, Operand.producedOk, Operand.incOk]

@[simp] theorem Operand.wf_constant {c : Int} : Operand.wf size ⟨r, .constant c⟩ = true ↔
    r = none ∧ c ∈ ([0, 1, 2, 4, 8, -1] : List Int) := by
  simp [Operand.wf, Operand.regOk, Operand.payloadOk, Operand.producedOk, Operand.incOk]

end Sys2Proof
end

section
/-! The operand resolver against the dispatch table (R80): what `resolve` answers, and what the table's
cells are. -/

namespace Sys2Proof.Machine

@[simp] theorem valueOperand_mode (mode : AddressingMode) : (valueOperand mode).mode = mode := rfl

@[simp] theorem regOperand_mode (reg : Reg) (mode : AddressingMode) : (regOperand reg mode).mode = mode := rfl

@[simp] theorem dispatchTable_f00 (reg : Reg) (size : OpSize) (x : Word) :
    dispatchTable .f00 reg size x = resolve00 reg := by
  fin_cases reg <;> rfl

@[simp] theorem dispatchTable_f01 (reg : Reg) (size : OpSize) (x : Word) :
    dispatchTable .f01 reg size x =
      if reg = 3 then valueOperand (.constant 1)
      else if reg = 2 then regOperand 2 (.absolute x.toNat)
      else regOperand reg (.indexed (signed 16 x.toNat)) := by
  fin_cases reg <;> rfl

@[simp] theorem dispatchTable_f10 (reg : Reg) (size : OpSize) (x : Word) :
    dispatchTable .f10 reg size x = resolve10 reg := by
  fin_cases reg <;> rfl

@[simp] theorem dispatchTable_f11 (reg : Reg) (size : OpSize) (x : Word) :
    dispatchTable .f11 reg size x =
      if reg = 0 then valueOperand (.immediate x.toNat)
      else if reg = 2 then valueOperand (.constant 8)
      else if reg = 3 then valueOperand (.constant (-1))
      else regOperand reg (.registerIndirectAutoIncrement (incOf size)) := by
  fin_cases reg <;> rfl

/-- An operand that reads no extension word, or finds one in the window, is the table's cell for the word at the
cursor, and the cursor moves past what it read (R80, R81). -/
theorem resolve_ok {cfg : Config} {mode : AddrField} {reg : Reg} {size : OpSize} {s : State}
    (h : extWords mode reg = 0 ∨ s.pos + 2 ≤ s.window.len) :
    resolve cfg mode reg size s =
      .ok (dispatchTable mode reg size (s.wordAt s.pos)) { s with pos := s.pos + 2 * extWords mode reg } := by
  cases mode with
  | f00 => simp [resolve, extWords]
  | f10 => simp [resolve, extWords]
  | f01 =>
    by_cases h3 : reg = 3
    · simp [resolve, resolve01, extWords, h3]
    · have hp : s.pos + 2 ≤ s.window.len := by simpa [extWords, h3] using h
      by_cases h2 : reg = 2 <;> simp [resolve, resolve01, takeWord_ok hp, extWords, h2, h3]
  | f11 =>
    by_cases h0 : reg = 0
    · have hp : s.pos + 2 ≤ s.window.len := by simpa [extWords, h0] using h
      simp [resolve, resolve11, takeWord_ok hp, extWords, h0]
    · simp only [resolve, resolve11, extWords, dispatchTable_f11, h0]
      split_ifs <;> simp_all

/-- An operand whose extension word is missing raises `TruncatedInput` and reads nothing (R81, R84). -/
theorem resolve_raised {cfg : Config} {mode : AddrField} {reg : Reg} {size : OpSize} {s : State}
    (he : extWords mode reg = 1) (hp : ¬ s.pos + 2 ≤ s.window.len) :
    resolve cfg mode reg size s = .raised (truncatedAt cfg s.pos s.window.len) s := by
  obtain ⟨h0, -⟩ | ⟨-, hp', -⟩ | ⟨-, -, h⟩ := resolve_cases cfg mode reg size s
  · omega
  · exact absurd hp' hp
  · exact h

/-- The operand of a successful resolution is the table's cell for the word at the cursor (R80). -/
theorem eq_dispatchTable_of_resolve {cfg : Config} {mode : AddrField} {reg : Reg} {size : OpSize} {s t : State}
    {o : Operand} (h : resolve cfg mode reg size s = .ok o t) :
    o = dispatchTable mode reg size (s.wordAt s.pos) := by
  by_cases hf : extWords mode reg = 0 ∨ s.pos + 2 ≤ s.window.len
  · rw [resolve_ok hf] at h
    exact (CursorResult.ok.inj h).1.symm
  · have := extWords_cases mode reg
    rw [resolve_raised (by omega) (by omega)] at h
    cases h

/-- Every cell of the table meets the invariants of R16 and R17. -/
@[simp] theorem dispatchTable_wf (mode : AddrField) (reg : Reg) (size : OpSize) (x : Word) :
    (dispatchTable mode reg size x).wf size = true := by
  have hx := word_lt x
  have hs := signed16_range hx
  cases mode with
  | f00 => rw [dispatchTable_f00, resolve00]; split_ifs <;> simp [*, valueOperand, regOperand]
  | f10 => rw [dispatchTable_f10, resolve10]; split_ifs <;> simp [*, valueOperand, regOperand]
  | f01 =>
    have hx' : x.toNat ≤ 65535 := by omega
    rw [dispatchTable_f01]; split_ifs <;> simp [*, valueOperand, regOperand]
  | f11 =>
    have hx' : x.toNat ≤ 65535 := by omega
    rw [dispatchTable_f11]; split_ifs <;> simp [*, valueOperand, regOperand]

/-- A cell of the table counts as consuming exactly the extension words R53 gives it (R20, R81). -/
theorem dispatchTable_consumed (mode : AddrField) (reg : Reg) (size : OpSize) (x : Word) :
    (if (dispatchTable mode reg size x).consumed = true then 1 else 0) = extWords mode reg := by
  cases mode
  case f00 => rw [dispatchTable_f00, resolve00]; split_ifs <;> simp_all [extWords, Operand.consumed]
  case f10 => rw [dispatchTable_f10, resolve10]; split_ifs <;> simp_all [extWords, Operand.consumed]
  case f01 => rw [dispatchTable_f01]; split_ifs <;> simp_all [extWords, Operand.consumed]
  case f11 => rw [dispatchTable_f11]; split_ifs <;> simp_all [extWords, Operand.consumed]

/-- A cell of a destination's two columns is a destination the record admits (R19, R82). -/
theorem dispatchTable_destinationOk {mode : AddrField} (h : mode = .f00 ∨ mode = .f01) (reg : Reg) (size : OpSize)
    (x : Word) : (dispatchTable mode reg size x).destinationOk = true := by
  obtain rfl | rfl := h
  · rw [dispatchTable_f00, resolve00]; split <;> rfl
  · rw [dispatchTable_f01]; split_ifs <;> rfl

end Sys2Proof.Machine
end

section
/-! What a decoded first word is: the lookup finds an instruction for every classified word, and it is well formed. -/

namespace Sys2Proof

theorem doubleFields_wf (w : Word) : (doubleFields w).wf = true := by
  have h : slice w 7 7 < 2 := slice_lt w 7 7
  unfold DoubleFields.wf doubleFields
  interval_cases slice w 7 7 <;> rfl

/-- Every nibble from 4 on stands in the map of R54. -/
theorem doubleInstr_total {w : Word} (h : 4 ≤ slice w 15 12) : ∃ i, doubleInstr w = some i := by
  have h' : slice w 15 12 < 16 := slice_lt w 15 12
  unfold doubleInstr
  interval_cases slice w 15 12 <;> exact ⟨_, rfl⟩

/-- Every operation number up to 6 stands in the map of R55. -/
theorem singleInstr_total {w : Word} (h : slice w 9 7 ≤ 6) : ∃ i, singleInstr w = some i := by
  unfold singleInstr
  interval_cases slice w 9 7 <;> exact ⟨_, rfl⟩

/-- Every condition stands in the map of R56. -/
theorem jumpInstr_total (w : Word) : ∃ i, jumpInstr w = some i := by
  have h : slice w 12 10 < 8 := slice_lt w 12 10
  unfold jumpInstr
  interval_cases slice w 12 10 <;> exact ⟨_, rfl⟩

/-- The lookup "cannot fail after classification" (R73). -/
theorem lookup_total {w : Word} {fmt : Format} (h : classify w = some fmt) : ∃ i, lookup fmt w = some i := by
  obtain ⟨rfl, hn, -⟩ | ⟨rfl, -, hop⟩ | ⟨rfl, -⟩ := classify_cases h
  · exact doubleInstr_total hn
  · exact singleInstr_total hop
  · exact jumpInstr_total w

/-- A word that does not decode is an unknown word, and the error carries it (R142). -/
theorem decodeWord_error_cases {w : Word} {e : DecodeError} (h : decodeWord w = .error e) :
    e = .unknownOpcode w ∧ classify w = none := by
  refine ⟨decodeWord_error_eq h, ?_⟩
  cases hc : classify w with
  | none => rfl
  | some fmt =>
    obtain ⟨i, hi⟩ := lookup_total hc
    rw [decodeWord_of_lookup hc hi] at h
    cases h

theorem doubleInstr_wf {w : Word} {i : Instr} (h : doubleInstr w = some i) : i.wf = true := by
  unfold doubleInstr at h
  split at h <;> cases h <;> exact doubleFields_wf w

theorem singleInstr_wf {w : Word} {i : Instr} (h : singleInstr w = some i) : i.wf = true := by
  unfold singleInstr at h
  split at h <;> cases h <;> rfl

theorem jumpInstr_wf {w : Word} {i : Instr} (h : jumpInstr w = some i) : i.wf = true := by
  unfold jumpInstr at h
  split at h <;> cases h <;> rfl

/-- Whatever a word decodes to is an instruction the encoding admits (R82). -/
theorem decodeWord_wf {w : Word} {i : Instr} (h : decodeWord w = .ok i) : i.wf = true := by
  obtain ⟨fmt, -, hl⟩ := decodeWord_ok_cases h
  cases fmt with
  | doubleOperand => exact doubleInstr_wf hl
  | singleOperand => exact singleInstr_wf hl
  | conditionalJump => exact jumpInstr_wf hl

end Sys2Proof
end

section
/-! The records the three assemblies build meet the record invariants (R16 to R20, R29). -/

namespace Sys2Proof

theorem condition_of_doubleOperand {m : Mnemonic} : m.format = .doubleOperand → m.condition = none := by
  cases m <;> rintro ⟨⟩ <;> rfl

theorem sizeVariant_of_doubleOperand {m : Mnemonic} : m.format = .doubleOperand → m.sizeVariant = true := by
  cases m <;> rintro ⟨⟩ <;> rfl

theorem condition_of_singleOperand {m : Mnemonic} : m.format = .singleOperand → m.condition = none := by
  cases m <;> rintro ⟨⟩ <;> rfl

namespace Machine

theorem doubleRecord_wf {m : Mnemonic} {size : OpSize} {src dst : Operand} {len : Nat}
    (hm : m.format = .doubleOperand) (hs : src.wf size = true) (hd : dst.wf size = true)
    (hdst : dst.destinationOk = true)
    (hlen : len = 2 + 2 * ((if src.consumed = true then 1 else 0) + if dst.consumed = true then 1 else 0)) :
    (doubleRecord m size src dst len).wf = true := by
  simp [InstrRecord.wf, InstrRecord.formatOk, InstrRecord.presenceOk, InstrRecord.operandsOk, InstrRecord.sizeOk,
    InstrRecord.conditionOk, InstrRecord.offsetsOk, InstrRecord.lengthOk, InstrRecord.extWords, doubleRecord,
    hm, hs, hd, hdst, hlen, sizeVariant_of_doubleOperand hm, condition_of_doubleOperand hm]

theorem singleRecord_wf {m : Mnemonic} {size : OpSize} {opd : Operand} {len : Nat}
    (hm : m.format = .singleOperand) (hr : m ≠ .reti) (hsize : m.sizeVariant = true ∨ size = .word)
    (ho : opd.wf size = true) (hlen : len = 2 + 2 * if opd.consumed = true then 1 else 0) :
    (singleRecord m size opd len).wf = true := by
  simp [InstrRecord.wf, InstrRecord.formatOk, InstrRecord.presenceOk, InstrRecord.operandsOk, InstrRecord.sizeOk,
    InstrRecord.conditionOk, InstrRecord.offsetsOk, InstrRecord.lengthOk, InstrRecord.extWords, singleRecord,
    hm, hr, hsize, ho, hlen, condition_of_singleOperand hm]

theorem retiRecord_wf : retiRecord.wf = true := by decide

theorem jumpRecord_wf {m : Mnemonic} {c : Condition} (hm : m.format = .conditionalJump)
    (hc : m.condition = some c) (off10 : BitVec 10) : (jumpRecord m c off10).wf = true := by
  have hr := signed10_range off10.isLt
  simp [InstrRecord.wf, InstrRecord.formatOk, InstrRecord.presenceOk, InstrRecord.operandsOk, InstrRecord.sizeOk,
    InstrRecord.conditionOk, InstrRecord.offsetsOk, InstrRecord.lengthOk, InstrRecord.extWords, jumpRecord,
    jumpOffset, hm, hc, hr]

end Machine
end Sys2Proof
end

section
/-! Every activation keeps the invariant. -/

namespace Sys2Proof.Machine

/-- An instruction's meaning is the assembly of its mnemonic's format, with what the record invariants need of it:
a destination field of one bit, the size a size-invariant operation has, the condition of a jump (R82, R101, R29). -/
theorem exec_cases (i : Instr) :
    (∃ f, i.mnemonic.format = .doubleOperand ∧ f.wf = i.wf ∧
      ∀ s, exec i s = assembleDouble Config.block i.mnemonic f s) ∨
    (∃ size field reg, i.mnemonic.format = .singleOperand ∧ i.mnemonic ≠ .reti ∧
      (i.mnemonic.sizeVariant = true ∨ size = .word) ∧
      ∀ s, exec i s = assembleSingle Config.block i.mnemonic size field reg s) ∨
    (∀ s, exec i s = returnOk retiRecord s) ∨
    (∃ c off10, i.mnemonic.format = .conditionalJump ∧ i.mnemonic.condition = some c ∧
      ∀ s, exec i s = returnOk (jumpRecord i.mnemonic c off10) s) := by
  cases i
  case reti => exact .inr (.inr (.inl fun _ => rfl))
  case rrc f | rra f | push f => exact .inr (.inl ⟨f.size, _, _, rfl, nofun, .inl rfl, fun _ => rfl⟩)
  case swpb f | sxt f | call f => exact .inr (.inl ⟨.word, _, _, rfl, nofun, .inr rfl, fun _ => rfl⟩)
  case jne o | jeq o | jnc o | jc o | jn o | jge o | jl o | jmp o =>
    exact .inr (.inr (.inr ⟨_, o, rfl, rfl, fun _ => rfl⟩))
  all_goals exact .inl ⟨_, rfl, rfl, fun _ => rfl⟩

/-- The invariant of a state an activation ends in, from its three parts. -/
theorem inv_mk {m : Memory} {p : Nat} {o : Output} (hm : m.wf = true) (hp : posOk p = true) (ho : o.wf = true) :
    State.Inv ⟨m, p, o⟩ = true := by
  simp [State.Inv, hm, hp, ho]

/-- A word missing at a legal position ends the activation in the invariant (R141). -/
theorem raiseTruncated_inv {s t : State} {p : Nat} (hm : s.window.wf = true) (hp : posOk p = true)
    (hlen : ¬ p + 2 ≤ s.window.len)
    (h : raiseError (.truncatedInput 2 (s.window.len - p)) { s with pos := p } = .next t) : t.Inv = true := by
  cases h
  refine inv_mk hm hp ?_
  simp [Output.wf, errorOk]
  omega

/-- Up to two extension words after the first word leave the cursor at a legal position (R22). -/
theorem posOk_after {a b : Nat} (ha : a ≤ 1) (hb : b ≤ 1) : posOk (2 + 2 * a + 2 * b) = true := by
  interval_cases a <;> interval_cases b <;> rfl

theorem assembleDouble_inv {m : Mnemonic} {f : DoubleFields} {s t : State} (hw : s.window.wf = true)
    (hpos : s.pos = 2) (hm : m.format = .doubleOperand) (hf : f.wf = true)
    (h : assembleDouble Config.block m f s = .next t) : t.Inv = true := by
  have ha := extWords_le f.srcField f.srcReg
  have hb := extWords_le f.dstField f.dstReg
  obtain ⟨src, dst, p, hp, hsrc, hdst, hr⟩ | ⟨-, hlen, hr⟩ | ⟨-, hlen, -, hr⟩ := assembleDouble_cases m f s
  · rw [hr] at h
    cases h
    obtain rfl := eq_dispatchTable_of_resolve hsrc
    obtain rfl := eq_dispatchTable_of_resolve hdst
    rw [hpos] at hp
    have hfield : f.dstField = .f00 ∨ f.dstField = .f01 := by simpa [DoubleFields.wf] using hf
    refine inv_mk hw (hp ▸ posOk_after ha hb) (doubleRecord_wf hm (dispatchTable_wf ..) (dispatchTable_wf ..)
      (dispatchTable_destinationOk hfield ..) ?_)
    rw [dispatchTable_consumed, dispatchTable_consumed]
    omega
  · exact raiseTruncated_inv hw (hpos ▸ rfl) hlen (hr.symm.trans h)
  · exact raiseTruncated_inv hw (hpos ▸ posOk_after ha (Nat.zero_le 1)) hlen (hr.symm.trans h)

theorem assembleSingle_inv {m : Mnemonic} {size : OpSize} {field : AddrField} {reg : Reg} {s t : State}
    (hw : s.window.wf = true) (hpos : s.pos = 2) (hm : m.format = .singleOperand) (hreti : m ≠ .reti)
    (hsize : m.sizeVariant = true ∨ size = .word)
    (h : assembleSingle Config.block m size field reg s = .next t) : t.Inv = true := by
  obtain ⟨opd, p, hp, hopd, hr⟩ | ⟨-, hlen, hr⟩ := assembleSingle_cases m size field reg s
  · rw [hr] at h
    cases h
    obtain rfl := eq_dispatchTable_of_resolve hopd
    rw [hpos] at hp
    refine inv_mk hw (hp ▸ posOk_after (extWords_le field reg) (Nat.zero_le 1))
      (singleRecord_wf hm hreti hsize (dispatchTable_wf ..) ?_)
    rw [dispatchTable_consumed]
    omega
  · exact raiseTruncated_inv hw (hpos ▸ rfl) hlen (hr.symm.trans h)

/-- The meaning of a well-formed instruction, run after its first word, ends in the invariant. -/
theorem exec_inv {i : Instr} {s t : State} (hi : i.wf = true) (hw : s.window.wf = true) (hpos : s.pos = 2)
    (h : exec i s = .next t) : t.Inv = true := by
  obtain ⟨f, hm, hf, he⟩ | ⟨size, field, reg, hm, hreti, hsize, he⟩ | he | ⟨c, off10, hm, hc, he⟩ :=
    exec_cases i
  · exact assembleDouble_inv hw hpos hm (hf.trans hi) ((he s).symm.trans h)
  · exact assembleSingle_inv hw hpos hm hreti hsize ((he s).symm.trans h)
  · cases (he s).symm.trans h
    exact inv_mk hw (hpos ▸ rfl) retiRecord_wf
  · cases (he s).symm.trans h
    exact inv_mk hw (hpos ▸ rfl) (jumpRecord_wf hm hc off10)

/-- Settles O42: the two errors of the first word, and every instruction's meaning, end in the invariant. -/
theorem stepKeepsTheInvariant : Obligations.StepKeepsTheInvariant := by
  intro s t hw h
  obtain ⟨hlen, hs⟩ | ⟨-, e, he, hs⟩ | ⟨-, i, hi, hs⟩ := step_cases s
  · exact raiseTruncated_inv (p := 0) hw rfl (by omega) (hs.symm.trans h)
  · obtain ⟨rfl, hc⟩ := decodeWord_error_cases he
    cases hs.symm.trans h
    refine inv_mk hw rfl ?_
    simp [Output.wf, errorOk, hc]
  · exact exec_inv (decodeWord_wf hi) (s := { s with pos := 2 }) hw rfl (hs.symm.trans h)

end Sys2Proof.Machine
end

section
/-! `decodeWord` undoes `encode` on every instruction the encoding admits (R48 to R50, R54 to R56). -/

namespace Sys2Proof

theorem classify_double {w : Word} (h : 4 ≤ slice w 15 12) : classify w = some .doubleOperand := by
  have hj : slice w 15 13 ≠ 1 := by
    simp only [slice] at h ⊢
    omega
  simp [classify, hj, h]

theorem classify_single {w : Word} {op : Nat} (h : slice w 15 7 = 32 + op) (hop : op ≤ 6) :
    classify w = some .singleOperand ∧ slice w 9 7 = op := by
  have h9 : slice w 9 7 = op := by
    simp only [slice] at h ⊢
    omega
  have hj : slice w 15 13 ≠ 1 ∧ ¬ 4 ≤ slice w 15 12 ∧ slice w 15 10 = 4 := by
    simp only [slice] at h ⊢
    omega
  exact ⟨by simp [classify, hj, h9, hop], h9⟩

theorem classify_jump {w : Word} {cond : Nat} (h : slice w 15 10 = 8 + cond) (hc : cond < 8) :
    classify w = some .conditionalJump ∧ slice w 12 10 = cond := by
  have hj : slice w 15 13 = 1 ∧ slice w 12 10 = cond := by
    simp only [slice] at h ⊢
    omega
  exact ⟨by simp [classify, hj], hj.2⟩

/-- The size bit read back (R15). -/
theorem sizeField_eq {w : Word} {size : OpSize} (h : slice w 6 6 = size.toBit) : sizeField w = size := by
  cases size <;> simp [sizeField, h, OpSize.toBit]

theorem regField_eq {w : Word} {lo : Nat} {reg : Reg} (h : slice w (lo + 3) lo = reg.val) : regField w lo = reg :=
  Fin.ext ((regField_val w lo).trans h)

/-- The fields of R48 read back, when the destination field is one bit (R82). -/
theorem doubleFields_encodeDouble {op : Nat} {f : DoubleFields} (h : op < 16) (hf : f.wf = true) :
    doubleFields (encodeDouble op f) = f := by
  obtain ⟨sr, df, z, sf, dr⟩ := f
  have hd : df.number < 2 := by
    obtain rfl | rfl : df = .f00 ∨ df = .f01 := by simpa [DoubleFields.wf] using hf
    · decide
    · decide
  have h1 := sr.isLt
  have h2 := dr.isLt
  have h3 := toBit_lt z
  have h4 := number_lt sf
  have hw : (encodeDouble op ⟨sr, df, z, sf, dr⟩).toNat =
      op * 4096 + sr.val * 256 + df.number % 2 * 128 + z.toBit * 64 + sf.number * 16 + dr.val :=
    toNat_ofNat16 (by dsimp only; omega)
  generalize encodeDouble op ⟨sr, df, z, sf, dr⟩ = w at hw
  have hdf : slice w 7 7 = df.number := by rw [slice, hw]; omega
  have hsf : slice w 5 4 = sf.number := by rw [slice, hw]; omega
  rw [doubleFields, sizeField_eq (size := z) (by rw [slice, hw]; omega),
    regField_eq (reg := sr) (by rw [slice, hw]; omega), regField_eq (reg := dr) (by rw [slice, hw]; omega),
    hdf, hsf, ofNumber_number, ofNumber_number]

/-- The fields of R49 read back where the size bit is honoured. -/
theorem sizedFields_encodeSized {op : Nat} {f : SizedFields} (h : op < 8) : sizedFields (encodeSized op f) = f := by
  obtain ⟨z, df, dr⟩ := f
  have h2 := dr.isLt
  have h3 := toBit_lt z
  have h4 := number_lt df
  have hw : (encodeSized op ⟨z, df, dr⟩).toNat = 4 * 1024 + op * 128 + z.toBit * 64 + df.number * 16 + dr.val :=
    toNat_ofNat16 (by dsimp only; omega)
  generalize encodeSized op ⟨z, df, dr⟩ = w at hw
  have hdf : slice w 5 4 = df.number := by rw [slice, hw]; omega
  rw [sizedFields, sizeField_eq (size := z) (by rw [slice, hw]; omega),
    regField_eq (reg := dr) (by rw [slice, hw]; omega), hdf, ofNumber_number]

/-- The fields of R49 read back where the size bit is ignored. -/
theorem unsizedFields_encodeUnsized {op : Nat} {f : UnsizedFields} (h : op < 8) :
    unsizedFields (encodeUnsized op f) = f := by
  obtain ⟨df, dr⟩ := f
  have h2 := dr.isLt
  have h4 := number_lt df
  have hw : (encodeUnsized op ⟨df, dr⟩).toNat = 4 * 1024 + op * 128 + df.number * 16 + dr.val :=
    toNat_ofNat16 (by dsimp only; omega)
  generalize encodeUnsized op ⟨df, dr⟩ = w at hw
  have hdf : slice w 5 4 = df.number := by rw [slice, hw]; omega
  rw [unsizedFields, regField_eq (reg := dr) (by rw [slice, hw]; omega), hdf, ofNumber_number]

/-- The offset field of R50 read back. -/
theorem off10Field_encodeJump {cond : Nat} {off10 : BitVec 10} (h : cond < 8) :
    off10Field (encodeJump cond off10) = off10 := by
  have h2 := off10.isLt
  have hs : slice (encodeJump cond off10) 9 0 = off10.toNat := by
    rw [slice, encodeJump, toNat_ofNat16 (by omega)]
    omega
  rw [off10Field, hs, BitVec.ofNat_toNat, BitVec.setWidth_eq]

section
open Laws.TableRow

theorem classify_encodeDouble {op : Nat} {f : DoubleFields} (h4 : 4 ≤ op) (h16 : op < 16) :
    classify (encodeDouble op f) = some .doubleOperand :=
  classify_double (by rwa [double_fixed op f h16])

theorem classify_encodeSized {op : Nat} {f : SizedFields} (h : op ≤ 6) :
    classify (encodeSized op f) = some .singleOperand ∧ slice (encodeSized op f) 9 7 = op :=
  classify_single (sized_fixed op f (by omega)) h

theorem classify_encodeUnsized {op : Nat} {f : UnsizedFields} (h : op ≤ 6) :
    classify (encodeUnsized op f) = some .singleOperand ∧ slice (encodeUnsized op f) 9 7 = op :=
  classify_single (unsized_fixed op f (by omega)) h

theorem classify_encodeJump {cond : Nat} {off10 : BitVec 10} (h : cond < 8) :
    classify (encodeJump cond off10) = some .conditionalJump ∧ slice (encodeJump cond off10) 12 10 = cond :=
  classify_jump (jump_fixed cond off10 h) h

/-- The first word an instruction is written as decodes to it: its format is the one classified, its opcode field is
its row's, and its fields are read back. -/
theorem decodeWord_encode {i : Instr} (hi : i.wf = true) : decodeWord (encode i) = .ok i := by
  cases i
  case reti => rfl
  case rrc f | rra f | push f =>
    exact decodeWord_of_lookup (classify_encodeSized (by decide)).1
      (by simp [lookup, singleInstr, encode, classify_encodeSized, sizedFields_encodeSized])
  case swpb f | sxt f | call f =>
    exact decodeWord_of_lookup (classify_encodeUnsized (by decide)).1
      (by simp [lookup, singleInstr, encode, classify_encodeUnsized, unsizedFields_encodeUnsized])
  case jne o | jeq o | jnc o | jc o | jn o | jge o | jl o | jmp o =>
    exact decodeWord_of_lookup (classify_encodeJump (by decide)).1
      (by simp [lookup, jumpInstr, encode, classify_encodeJump, off10Field_encodeJump])
  all_goals
    exact decodeWord_of_lookup (classify_encodeDouble (by decide) (by decide))
      (by simp [lookup, doubleInstr, encode, double_fixed, doubleFields_encodeDouble _ hi])

end

end Sys2Proof
end

section
/-! A well-formed operand is the table's cell for the field and register it is written as (R80, read backwards). -/

namespace Sys2Proof

/-- An operand is written with at most one extension word (R51). -/
theorem extension_cases (o : Operand) : o.extension = [] ∨ ∃ w, o.extension = [w] := by
  obtain ⟨r, mode⟩ := o
  cases mode
  case indexed | immediate | absolute => exact .inr ⟨_, rfl⟩
  all_goals exact .inl rfl

/-- The operands written with an extension word are those that count as consuming one (R20, R51). -/
theorem extension_length (o : Operand) : o.extension.length = if o.consumed = true then 1 else 0 := by
  obtain ⟨r, mode⟩ := o
  cases mode <;> rfl

variable {size : OpSize} {o : Operand}

/-- The field and register an operand is written as lead back to it, given its extension word if it has one. -/
theorem dispatchTable_fieldAndReg {x : Word} (h : o.wf size = true) (hx : ∀ w ∈ o.extension, w = x) :
    Machine.dispatchTable o.fieldAndReg.1 o.fieldAndReg.2 size x = o := by
  obtain ⟨r, mode⟩ := o
  cases mode with
  | registerDirect =>
    obtain ⟨reg, rfl, h3⟩ := Operand.wf_registerDirect.mp h
    simp [Operand.fieldAndReg, Machine.resolve00, h3, Machine.regOperand]
  | indexed off =>
    obtain ⟨reg, rfl, h2, h3, hlo, hhi⟩ := Operand.wf_indexed.mp h
    obtain rfl : _ = x := hx _ (List.mem_singleton.mpr rfl)
    simp [Operand.fieldAndReg, h2, h3, Machine.regOperand, Nat.mod_eq_of_lt (unsigned16_lt off),
      signed16_unsigned hlo hhi]
  | registerIndirect =>
    obtain ⟨reg, rfl, h2, h3⟩ := Operand.wf_registerIndirect.mp h
    simp [Operand.fieldAndReg, Machine.resolve10, h2, h3, Machine.regOperand]
  | registerIndirectAutoIncrement inc =>
    obtain ⟨reg, rfl, h0, h2, h3, rfl⟩ := Operand.wf_autoIncrement.mp h
    simp [Operand.fieldAndReg, h0, h2, h3, Machine.regOperand]
  | immediate val =>
    obtain ⟨rfl, hval⟩ := Operand.wf_immediate.mp h
    obtain rfl : _ = x := hx _ (List.mem_singleton.mpr rfl)
    simp [Operand.fieldAndReg, Machine.valueOperand, Nat.lt_succ_of_le hval]
  | absolute addr =>
    obtain ⟨rfl, haddr⟩ := Operand.wf_absolute.mp h
    obtain rfl : _ = x := hx _ (List.mem_singleton.mpr rfl)
    simp [Operand.fieldAndReg, Machine.regOperand, Nat.lt_succ_of_le haddr]
  | constant c =>
    obtain ⟨rfl, hc⟩ := Operand.wf_constant.mp h
    fin_cases hc <;> rfl

/-- An operand's field and register read as many extension words as it is written with (R53). -/
theorem extWords_fieldAndReg (h : o.wf size = true) :
    extWords o.fieldAndReg.1 o.fieldAndReg.2 = o.extension.length := by
  obtain ⟨x, hx⟩ : ∃ x, ∀ w ∈ o.extension, w = x := by
    obtain h | ⟨x, h⟩ := extension_cases o
    · exact ⟨0, by simp [h]⟩
    · exact ⟨x, by simp [h]⟩
  rw [← Machine.dispatchTable_consumed _ _ size x, dispatchTable_fieldAndReg h hx, extension_length]

/-- A destination the record admits is written with a field of one bit (R82). -/
theorem fieldAndReg_destination (h : o.destinationOk = true) :
    o.fieldAndReg.1 = .f00 ∨ o.fieldAndReg.1 = .f01 := by
  obtain ⟨r, mode⟩ := o
  cases mode
  case registerDirect => exact .inl rfl
  case indexed | absolute => exact .inr rfl
  case constant c =>
    obtain rfl | rfl : c = 0 ∨ c = 1 := by simpa [Operand.destinationOk] using h
    · exact .inl rfl
    · exact .inr rfl
  all_goals cases h

end Sys2Proof
end

section
/-! Words that stand in a window one after another, and the resolver and the assemblies on the extension words
written for their operands. -/

namespace Sys2Proof.Machine

/-- The words stand in the window from address `p` on. -/
def Memory.Holds (m : Memory) : Nat → List Word → Prop
  | _, [] => True
  | p, w :: ws => m.word p = some w ∧ m.Holds (p + 2) ws

theorem holds_append {m : Memory} {p : Nat} {xs ys : List Word} :
    m.Holds p (xs ++ ys) ↔ m.Holds p xs ∧ m.Holds (p + 2 * xs.length) ys := by
  induction xs generalizing p with
  | nil => simp [Memory.Holds]
  | cons w ws ih =>
    have hp : p + 2 * (w :: ws).length = p + 2 + 2 * ws.length := by rw [List.length_cons]; omega
    rw [List.cons_append, hp]
    simp only [Memory.Holds, ih, and_assoc]

/-- A word that stands at an address lies within the window and is what the cursor reads there (R7, R65). -/
theorem word_eq_some {s : State} {p : Nat} {w : Word} (h : s.window.word p = some w) :
    p + 2 ≤ s.window.len ∧ s.wordAt p = w := by
  rw [word_eq] at h
  split at h
  · exact ⟨‹_›, Option.some.inj h⟩
  · cases h

theorem bytesOfWords_length (ws : List Word) : (bytesOfWords ws).length = 2 * ws.length := by
  induction ws with
  | nil => rfl
  | cons w ws ih =>
    rw [bytesOfWords] at ih ⊢
    rw [List.flatMap_cons, List.length_append, ih, List.length_cons, bytesOfWord, List.length_cons,
      List.length_singleton]
    omega

theorem word_ofBytes_append (pre : List Byte) (w : Word) (rest : List Byte) :
    (Memory.ofBytes (pre ++ bytesOfWord w ++ rest)).word pre.length = some w := by
  simp [Memory.word, bytesOfWord, wordOfBytes_halves]

/-- Words presented after some bytes stand in the window there (R33, R46). -/
theorem holds_ofBytes (pre : List Byte) (ws : List Word) (rest : List Byte) :
    (Memory.ofBytes (pre ++ bytesOfWords ws ++ rest)).Holds pre.length ws := by
  induction ws generalizing pre with
  | nil => trivial
  | cons w ws ih =>
    have hw := word_ofBytes_append pre w (bytesOfWords ws ++ rest)
    have ih' := ih (pre ++ bytesOfWord w)
    have hbs : pre ++ bytesOfWords (w :: ws) ++ rest = pre ++ bytesOfWord w ++ bytesOfWords ws ++ rest := by
      simp [bytesOfWords]
    rw [← List.append_assoc] at hw
    rw [hbs]
    exact ⟨hw, by simpa [bytesOfWord] using ih'⟩

/-- The resolver reads an operand back from the extension word it is written with (R80, R51). -/
theorem resolve_written {size : OpSize} {o : Operand} {s : State} (h : o.wf size = true)
    (hw : s.window.Holds s.pos o.extension) :
    resolve Config.block o.fieldAndReg.1 o.fieldAndReg.2 size s =
      .ok o { s with pos := s.pos + 2 * o.extension.length } := by
  have he := extWords_fieldAndReg h
  obtain ho | ⟨x, ho⟩ := extension_cases o
  · rw [resolve_ok (.inl (by simp [he, ho])), dispatchTable_fieldAndReg h (by simp [ho]), he]
  · rw [ho] at hw
    obtain ⟨hlen, hx⟩ := word_eq_some hw.1
    rw [resolve_ok (.inr hlen), dispatchTable_fieldAndReg h (by simp [ho, hx]), he]

theorem assembleDouble_written {m : Mnemonic} {size : OpSize} {src dst : Operand} {s : State}
    (hs : src.wf size = true) (hd : dst.wf size = true)
    (hw : s.window.Holds s.pos (src.extension ++ dst.extension)) :
    outcomeOf (assembleDouble Config.block m
      ⟨src.fieldAndReg.2, dst.fieldAndReg.1, size, src.fieldAndReg.1, dst.fieldAndReg.2⟩ s) =
      .ok (doubleRecord m size src dst (s.pos + 2 * (src.extension ++ dst.extension).length)) := by
  obtain ⟨hws, hwd⟩ := holds_append.mp hw
  rw [assembleDouble, resolve_written hs hws]
  simp only [resolveDestination_block]
  rw [resolve_written hd hwd]
  simp [Nat.mul_add, Nat.add_assoc]

theorem assembleSingle_written {m : Mnemonic} {size : OpSize} {opd : Operand} {s : State}
    (ho : opd.wf size = true) (hw : s.window.Holds s.pos opd.extension) :
    outcomeOf (assembleSingle Config.block m size opd.fieldAndReg.1 opd.fieldAndReg.2 s) =
      .ok (singleRecord m size opd (s.pos + 2 * opd.extension.length)) := by
  rw [assembleSingle, resolve_written ho hw]
  simp

/-- A window shorter than a word is an error before anything is decoded (R74). -/
theorem step_short {s : State} (h : ¬ 2 ≤ s.window.len) :
    step s = raiseError (.truncatedInput 2 s.window.len) s.begin := by
  obtain ⟨-, hs⟩ | ⟨hlen, -⟩ | ⟨hlen, -⟩ := step_cases s
  · exact hs
  · exact absurd hlen h
  · exact absurd hlen h

/-- An unknown first word ends the activation with its error (R72, R142). -/
theorem step_unknown {s : State} {e : DecodeError} (h : 2 ≤ s.window.len) (he : decodeWord (s.wordAt 0) = .error e) :
    step s = raiseError e { s with pos := 2 } := by
  obtain ⟨hshort, -⟩ | ⟨-, e', he', hs⟩ | ⟨-, i, hi, -⟩ := step_cases s
  · exact absurd h hshort
  · cases he'.symm.trans he
    exact hs
  · cases hi.symm.trans he

/-- A known first word runs its instruction's meaning with the cursor past it (R72). -/
theorem step_known {s : State} {i : Instr} (h : 2 ≤ s.window.len) (hi : decodeWord (s.wordAt 0) = .ok i) :
    step s = exec i { s with pos := 2 } := by
  obtain ⟨hshort, -⟩ | ⟨-, e, he, -⟩ | ⟨-, j, hj, hs⟩ := step_cases s
  · exact absurd h hshort
  · cases he.symm.trans hi
  · cases hj.symm.trans hi
    exact hs

/-- A window that starts with an instruction's first word is decoded by that instruction's meaning, run on the words
that follow (R72). -/
theorem decodeWindow_encode {i : Instr} (hi : i.wf = true) (ext : List Word) (rest : List Byte) :
    ∃ s : State, s.pos = 2 ∧ s.window.Holds 2 ext ∧
      decodeWindow (bytesOfWords (encode i :: ext) ++ rest) = outcomeOf (exec i s) := by
  obtain ⟨hword, hext⟩ := holds_ofBytes [] (encode i :: ext) rest
  obtain ⟨hlen, hfirst⟩ :=
    word_eq_some (s := State.reset.present (bytesOfWords (encode i :: ext) ++ rest)) (p := 0) hword
  refine ⟨{ State.reset.present (bytesOfWords (encode i :: ext) ++ rest) with pos := 2 }, rfl, hext, ?_⟩
  rw [decodeWindow, step_known hlen (by rw [hfirst, decodeWord_encode hi])]

end Sys2Proof.Machine
end

section
/-! Every well-formed record is what one of the assemblies builds, so it is decoded from the bytes it is written as. -/

namespace Sys2Proof.Machine

/-- Any offset in the range of R112 is the offset of its ten bits. -/
theorem exists_jumpOffset {z : Int} (hlo : -512 ≤ z) (hhi : z ≤ 511) :
    ∃ off10, jumpOffset off10 = (z, 2 * z) := by
  refine ⟨BitVec.ofNat 10 (unsigned 10 z), ?_⟩
  have hn : (BitVec.ofNat 10 (unsigned 10 z)).toNat = unsigned 10 z := by
    rw [BitVec.toNat_ofNat]
    exact Nat.mod_eq_of_lt (unsigned10_lt z)
  rw [jumpOffset, hn, signed10_unsigned hlo hhi]

/-- The offsets of a record: none, or a jump's ten bits twice over (R18, R19). -/
theorem offsets_cases {r : InstrRecord} (h : r.offsetsOk = true) :
    (r.format ≠ .conditionalJump ∧ r.offsetWords = none ∧ r.offsetBytes = none) ∨
    (r.format = .conditionalJump ∧ ∃ off10,
      r.offsetWords = some (jumpOffset off10).1 ∧ r.offsetBytes = some (jumpOffset off10).2) := by
  unfold InstrRecord.offsetsOk at h
  split at h
  · rename_i ow ob hw hb
    simp only [Bool.and_eq_true, decide_eq_true_eq] at h
    obtain ⟨⟨⟨hf, hlo⟩, hhi⟩, rfl⟩ := h
    obtain ⟨off10, ho⟩ := exists_jumpOffset hlo hhi
    exact .inr ⟨hf, off10, by rw [hw, ho], by rw [hb, ho]⟩
  · exact .inl ⟨of_decide_eq_true h, ‹_›, ‹_›⟩
  · cases h

theorem condition_of_conditionalJump {m : Mnemonic} : m.format = .conditionalJump → ∃ c, m.condition = some c := by
  cases m <;> rintro ⟨⟩ <;> exact ⟨_, rfl⟩

theorem sizeVariant_of_conditionalJump {m : Mnemonic} : m.format = .conditionalJump → m.sizeVariant = false := by
  cases m <;> rintro ⟨⟩ <;> rfl

/-- The records the rules allow: one DoubleOperand record for two operands, one SingleOperand record for an operand,
RETI's record, and one jump record for an offset field (R18, R19, R20, R29). -/
theorem record_cases {r : InstrRecord} (h : r.wf = true) :
    (∃ m size src dst, m.format = .doubleOperand ∧ src.wf size = true ∧ dst.wf size = true ∧
      dst.destinationOk = true ∧
      r = doubleRecord m size src dst (2 + 2 * (src.extension ++ dst.extension).length)) ∨
    (∃ m size opd, m.format = .singleOperand ∧ m ≠ .reti ∧ (m.sizeVariant = true ∨ size = .word) ∧
      opd.wf size = true ∧ r = singleRecord m size opd (2 + 2 * opd.extension.length)) ∨
    r = retiRecord ∨
    (∃ m c off10, m.format = .conditionalJump ∧ m.condition = some c ∧ r = jumpRecord m c off10) := by
  simp only [InstrRecord.wf, Bool.and_eq_true] at h
  obtain ⟨⟨⟨⟨⟨⟨hfmt, hpres⟩, hopd⟩, hsize⟩, hcond⟩, hoff⟩, hlen⟩ := h
  have hoffs := offsets_cases hoff
  obtain ⟨m, fmt, size, source, destination, condition, ow, ob, len⟩ := r
  obtain rfl : fmt = m.format := of_decide_eq_true hfmt
  obtain rfl : condition = m.condition := of_decide_eq_true hcond
  obtain rfl : len = 2 + 2 * ((if source.any (·.consumed) then 1 else 0) +
      if destination.any (·.consumed) then 1 else 0) := of_decide_eq_true hlen
  cases hm : m.format with
  | doubleOperand =>
    obtain ⟨-, rfl, rfl⟩ := hoffs.resolve_right (by simp [hm])
    obtain ⟨⟨src, rfl⟩, dst, rfl⟩ : (∃ src, source = some src) ∧ ∃ dst, destination = some dst := by
      simpa [InstrRecord.presenceOk, hm, Option.isSome_iff_exists] using hpres
    obtain ⟨⟨hs, hd⟩, hdst⟩ : (src.wf size = true ∧ dst.wf size = true) ∧ dst.destinationOk = true := by
      simpa [InstrRecord.operandsOk, hm] using hopd
    refine .inl ⟨m, size, src, dst, hm, hs, hd, hdst, ?_⟩
    simp [doubleRecord, condition_of_doubleOperand hm, extension_length]
  | singleOperand =>
    obtain ⟨-, rfl, rfl⟩ := hoffs.resolve_right (by simp [hm])
    have hsize' : m.sizeVariant = true ∨ size = .word := by simpa [InstrRecord.sizeOk] using hsize
    obtain ⟨rfl, hd⟩ : source = none ∧ destination.isSome = !decide (m = .reti) := by
      simpa [InstrRecord.presenceOk, hm] using hpres
    cases destination with
    | none =>
      obtain rfl : m = .reti := by simpa using hd
      obtain rfl : size = .word := by simpa [Mnemonic.sizeVariant] using hsize'
      exact .inr (.inr (.inl rfl))
    | some opd =>
      refine .inr (.inl ⟨m, size, opd, hm, by simpa using hd, hsize', ?_, ?_⟩)
      · simpa [InstrRecord.operandsOk, hm] using hopd
      · simp [singleRecord, condition_of_singleOperand hm, extension_length]
  | conditionalJump =>
    obtain ⟨-, off10, rfl, rfl⟩ := hoffs.resolve_left (by simp [hm])
    obtain ⟨c, hc⟩ := condition_of_conditionalJump hm
    obtain ⟨rfl, rfl⟩ : source = none ∧ destination = none := by
      simpa [InstrRecord.presenceOk, hm] using hpres
    obtain rfl : size = .word := by simpa [InstrRecord.sizeOk, sizeVariant_of_conditionalJump hm] using hsize
    exact .inr (.inr (.inr ⟨m, c, off10, hm, hc, by simp [jumpRecord, hc]⟩))

/-- A DoubleOperand record is written as an instruction that the assembly of R85 runs on its operands' fields. -/
theorem instr_doubleRecord {m : Mnemonic} {size : OpSize} {src dst : Operand} {len : Nat}
    (hm : m.format = .doubleOperand) (hdst : dst.destinationOk = true) :
    (doubleRecord m size src dst len).instr.wf = true ∧
      ∀ s, exec (doubleRecord m size src dst len).instr s = assembleDouble Config.block m
        ⟨src.fieldAndReg.2, dst.fieldAndReg.1, size, src.fieldAndReg.1, dst.fieldAndReg.2⟩ s := by
  have hwf : DoubleFields.wf
      ⟨src.fieldAndReg.2, dst.fieldAndReg.1, size, src.fieldAndReg.1, dst.fieldAndReg.2⟩ = true := by
    simpa [DoubleFields.wf] using fieldAndReg_destination hdst
  revert hm
  cases m <;> rintro ⟨⟩ <;> exact ⟨hwf, fun _ => rfl⟩

/-- A SingleOperand record is written as an instruction that the assembly of R100 runs on its operand's field. -/
theorem instr_singleRecord {m : Mnemonic} {size : OpSize} {opd : Operand} {len : Nat}
    (hm : m.format = .singleOperand) (hr : m ≠ .reti) (hsize : m.sizeVariant = true ∨ size = .word) :
    (singleRecord m size opd len).instr.wf = true ∧
      ∀ s, exec (singleRecord m size opd len).instr s =
        assembleSingle Config.block m size opd.fieldAndReg.1 opd.fieldAndReg.2 s := by
  revert hm
  cases m <;> rintro ⟨⟩
  case reti => exact absurd rfl hr
  case rrc | rra | push => exact ⟨rfl, fun _ => rfl⟩
  case swpb | sxt | call =>
    obtain rfl : size = .word := by simpa [Mnemonic.sizeVariant] using hsize
    exact ⟨rfl, fun _ => rfl⟩

/-- A jump record is written as an instruction that the assembly of R113 runs on its ten bits. -/
theorem instr_jumpRecord {m : Mnemonic} {c : Condition} {off10 : BitVec 10} (hc : m.condition = some c) :
    (jumpRecord m c off10).instr.wf = true ∧
      ∀ s, exec (jumpRecord m c off10).instr s = assembleJump m c off10 s := by
  have hoff : BitVec.ofNat 10 (unsigned 10 (jumpOffset off10).1) = off10 := by
    rw [jumpOffset, unsigned10_signed off10.isLt, BitVec.ofNat_toNat, BitVec.setWidth_eq]
  have he : (jumpRecord m c off10).instr.wf = true ∧ ∀ s, exec (jumpRecord m c off10).instr s =
      assembleJump m c (BitVec.ofNat 10 (unsigned 10 (jumpOffset off10).1)) s := by
    revert hc
    cases m <;> rintro ⟨⟩ <;> exact ⟨rfl, fun _ => rfl⟩
  rwa [hoff] at he

/-- A well-formed record is written in `length` bytes, and is what they decode to under any suffix (R20, R72). -/
theorem decodeWindow_encodeRecord {r : InstrRecord} (h : r.wf = true) (rest : List Byte) :
    (bytesOfWords (encodeRecord r)).length = r.length ∧
      decodeWindow (bytesOfWords (encodeRecord r) ++ rest) = .ok r := by
  rw [bytesOfWords_length]
  obtain ⟨m, size, src, dst, hm, hs, hd, hdst, rfl⟩ | ⟨m, size, opd, hm, hr, hsize, ho, rfl⟩ | rfl |
    ⟨m, c, off10, hm, hc, rfl⟩ := record_cases h
  · obtain ⟨hi, he⟩ := instr_doubleRecord (src := src) (size := size)
      (len := 2 + 2 * (src.extension ++ dst.extension).length) hm hdst
    obtain ⟨s, hpos, hw, hdec⟩ := decodeWindow_encode hi (src.extension ++ dst.extension) rest
    refine ⟨by simp [encodeRecord, doubleRecord]; omega, hdec.trans ?_⟩
    rw [he, assembleDouble_written hs hd (hpos ▸ hw), hpos]
  · obtain ⟨hi, he⟩ := instr_singleRecord (opd := opd) (len := 2 + 2 * opd.extension.length) hm hr hsize
    obtain ⟨s, hpos, hw, hdec⟩ := decodeWindow_encode hi opd.extension rest
    refine ⟨by simp [encodeRecord, singleRecord]; omega, hdec.trans ?_⟩
    rw [he, assembleSingle_written ho (hpos ▸ hw), hpos]
  · obtain ⟨s, -, -, hdec⟩ := decodeWindow_encode (i := .reti) rfl [] rest
    exact ⟨rfl, hdec⟩
  · obtain ⟨hi, he⟩ := instr_jumpRecord (off10 := off10) hc
    obtain ⟨s, -, -, hdec⟩ := decodeWindow_encode hi [] rest
    exact ⟨rfl, hdec.trans (by rw [he]; rfl)⟩

/-- Settles O48: a well-formed record is one that an assembly builds, and the instruction it is written as runs that
assembly on the extension words written for its operands. -/
theorem everyWellFormedRecordIsDecodedFromItsBytes : Obligations.EveryWellFormedRecordIsDecodedFromItsBytes :=
  fun _ h => ⟨(decodeWindow_encodeRecord h []).1, fun rest => (decodeWindow_encodeRecord h rest).2⟩

end Sys2Proof.Machine
end

section
/-! An activation depends on the window alone, and of it on the first six bytes only (R35, R37, R160). -/

namespace Sys2Proof.Machine

/-- Two windows whose first six bytes agree, and that are equally long or both at least six long (`MAX_LEN`, R5). -/
structure SameFirstSix (m n : Memory) : Prop where
  len : min m.len 6 = min n.len 6
  cell : ∀ a < 6, lookupCell m.cells a = lookupCell n.cells a

theorem sameFirstSix_refl (m : Memory) : SameFirstSix m m := ⟨rfl, fun _ _ => rfl⟩

theorem sameFirstSix_take (bs : List Byte) : SameFirstSix (Memory.ofBytes bs) (Memory.ofBytes (bs.take 6)) where
  len := by simp [Nat.min_comm]
  cell a ha := by rw [lookupCell_ofBytes, lookupCell_ofBytes, List.getElem?_take_of_lt ha]

/-- The two answers leave their own window as it was, and agree on the rest of the next state. -/
def SameAnswer (m n : Memory) (o o' : Host.Outcome State Fault Refusal) : Prop :=
  ∃ p out, o = .next ⟨m, p, out⟩ ∧ o' = .next ⟨n, p, out⟩

theorem raiseError_sameAnswer {s t : State} (hp : s.pos = t.pos) (e : DecodeError) :
    SameAnswer s.window t.window (raiseError e s) (raiseError e t) :=
  ⟨s.pos, _, rfl, hp ▸ rfl⟩

theorem returnOk_sameAnswer {s t : State} (hp : s.pos = t.pos) (r : InstrRecord) :
    SameAnswer s.window t.window (returnOk r s) (returnOk r t) :=
  ⟨s.pos, _, rfl, hp ▸ rfl⟩

theorem wordAt_of_sameFirstSix {s t : State} (h : SameFirstSix s.window t.window) {a : Nat} (ha : a ≤ 4) :
    s.wordAt a = t.wordAt a := by
  rw [State.wordAt, State.wordAt, h.cell a (by omega), h.cell (a + 1) (by omega)]

/-- From a cursor at most 4, the resolver answers both windows with the same operand or the same error. -/
theorem resolve_sameFirstSix {s t : State} (h : SameFirstSix s.window t.window) (hp : s.pos = t.pos)
    (h4 : s.pos ≤ 4) (mode : AddrField) (reg : Reg) (size : OpSize) :
    (∃ o p, p ≤ s.pos + 2 ∧ resolve Config.block mode reg size s = .ok o { s with pos := p } ∧
      resolve Config.block mode reg size t = .ok o { t with pos := p }) ∨
    (∃ e, resolve Config.block mode reg size s = .raised e s ∧ resolve Config.block mode reg size t = .raised e t) := by
  have hlen := h.len
  have he := extWords_le mode reg
  by_cases hf : extWords mode reg = 0 ∨ s.pos + 2 ≤ s.window.len
  · refine .inl ⟨_, s.pos + 2 * extWords mode reg, by omega, resolve_ok hf, ?_⟩
    rw [resolve_ok (by omega), ← hp, wordAt_of_sameFirstSix h h4]
  · have hpay : s.window.len - s.pos = t.window.len - t.pos := by omega
    refine .inr ⟨_, resolve_raised (by omega) (by omega), ?_⟩
    rw [resolve_raised (by omega) (by omega), truncatedAt_block, truncatedAt_block, hpay]

theorem assembleDouble_sameFirstSix {s t : State} (h : SameFirstSix s.window t.window) (hp : s.pos = t.pos)
    (h2 : s.pos ≤ 2) (m : Mnemonic) (f : DoubleFields) :
    SameAnswer s.window t.window (assembleDouble Config.block m f s) (assembleDouble Config.block m f t) := by
  unfold assembleDouble
  obtain ⟨src, p, hle, hs, ht⟩ | ⟨e, hs, ht⟩ := resolve_sameFirstSix h hp (by omega) f.srcField f.srcReg f.size
  · rw [hs, ht]
    simp only [resolveDestination_block]
    obtain ⟨dst, q, -, hs', ht'⟩ | ⟨e, hs', ht'⟩ := resolve_sameFirstSix (s := { s with pos := p })
      (t := { t with pos := p }) h rfl (by dsimp only; omega) f.dstField f.dstReg f.size
    · rw [hs', ht']
      exact returnOk_sameAnswer (s := { s with pos := q }) (t := { t with pos := q }) rfl _
    · rw [hs', ht']
      exact raiseError_sameAnswer (s := { s with pos := p }) (t := { t with pos := p }) rfl e
  · rw [hs, ht]
    exact raiseError_sameAnswer hp e

theorem assembleSingle_sameFirstSix {s t : State} (h : SameFirstSix s.window t.window) (hp : s.pos = t.pos)
    (h2 : s.pos ≤ 2) (m : Mnemonic) (size : OpSize) (field : AddrField) (reg : Reg) :
    SameAnswer s.window t.window (assembleSingle Config.block m size field reg s)
      (assembleSingle Config.block m size field reg t) := by
  unfold assembleSingle
  obtain ⟨opd, p, -, hs, ht⟩ | ⟨e, hs, ht⟩ := resolve_sameFirstSix h hp (by omega) field reg size
  · rw [hs, ht]
    exact returnOk_sameAnswer (s := { s with pos := p }) (t := { t with pos := p }) rfl _
  · rw [hs, ht]
    exact raiseError_sameAnswer hp e

theorem exec_sameFirstSix {s t : State} (h : SameFirstSix s.window t.window) (hp : s.pos = t.pos)
    (h2 : s.pos ≤ 2) (i : Instr) : SameAnswer s.window t.window (exec i s) (exec i t) := by
  obtain ⟨m, f, he⟩ | ⟨m, size, field, reg, he⟩ | ⟨r, he⟩ := exec_shape i
  · rw [he, he]
    exact assembleDouble_sameFirstSix h hp h2 m f
  · rw [he, he]
    exact assembleSingle_sameFirstSix h hp h2 m size field reg
  · rw [he, he]
    exact returnOk_sameAnswer hp r

/-- An activation reads at most the first six bytes, and nothing that an earlier activation left (R35, R160). -/
theorem step_sameFirstSix {s t : State} (h : SameFirstSix s.window t.window) :
    SameAnswer s.window t.window (step s) (step t) := by
  have hlen := h.len
  have hword := wordAt_of_sameFirstSix h (Nat.zero_le 4)
  by_cases h2 : 2 ≤ s.window.len
  · have h2' : 2 ≤ t.window.len := by omega
    cases hd : decodeWord (s.wordAt 0) with
    | error e =>
      rw [step_unknown h2 hd, step_unknown h2' (hword ▸ hd)]
      exact raiseError_sameAnswer (s := { s with pos := 2 }) (t := { t with pos := 2 }) rfl e
    | ok i =>
      rw [step_known h2 hd, step_known h2' (hword ▸ hd)]
      exact exec_sameFirstSix (s := { s with pos := 2 }) (t := { t with pos := 2 }) h rfl (Nat.le_refl 2) i
  · have hpay : s.window.len = t.window.len := by omega
    rw [step_short h2, step_short (hpay ▸ h2), hpay]
    exact raiseError_sameAnswer (s := s.begin) (t := t.begin) rfl _

/-- An activation is a function of the window alone (R160, R27). -/
theorem step_congr {s t : State} (h : s.window = t.window) : step s = step t := by
  obtain ⟨p, out, hs, ht⟩ := step_sameFirstSix (s := s) (t := t) (h ▸ sameFirstSix_refl s.window)
  rw [hs, ht, h]

/-- The outcome of an activation depends on the first six bytes only (R35). -/
theorem outcomeOf_step_congr {s t : State} (h : SameFirstSix s.window t.window) :
    outcomeOf (step s) = outcomeOf (step t) := by
  obtain ⟨p, out, hs, ht⟩ := step_sameFirstSix h
  rw [hs, ht]
  rfl

/-- Settles O47: the first six bytes decide, and the lanes present exactly these. -/
theorem sixLanesGiveTheOutcomeOfTheWholeSequence : Obligations.SixLanesGiveTheOutcomeOfTheWholeSequence := by
  intro bs
  have htake : decodeWindow bs = decodeWindow (bs.take 6) := outcomeOf_step_congr (sameFirstSix_take bs)
  refine ⟨htake, fun s lanes inLen hlanes => ?_⟩
  rw [htake, hlanes]
  exact congrArg outcomeOf (step_congr rfl)

/-- Settles O3, by what a presented window reads as. -/
theorem presentedWindowHoldsItsBytes : Obligations.PresentedWindowHoldsItsBytes :=
  fun s bs a => ⟨byte_ofBytes bs a, ofBytes_len bs, toBytes_ofBytes bs, present_wf s bs⟩

/-- Settles O40: the empty window, the cursor at 0, no outcome. -/
theorem resetMeetsTheInvariant : Obligations.ResetMeetsTheInvariant :=
  inv_mk empty_wf rfl rfl

/-- Settles O41: an activation depends on the window alone. -/
theorem resetIsLikeAnyOtherTime : Obligations.ResetIsLikeAnyOtherTime :=
  ⟨reset_pos, reset_out, rfl, fun _ _ => step_congr rfl⟩

end Sys2Proof.Machine
end

section
/-! A window in canonical form is determined by its length and its bytes (R30, R31). -/

namespace Sys2Proof.Machine

variable {len lo k a : Nat} {b : Byte} {cs ds : List Host.Cell}

theorem cellsOk_cons : Memory.cellsOk len lo ((k, b) :: cs) = true ↔
    lo ≤ k ∧ k < len ∧ b ≠ unlistedByte ∧ Memory.cellsOk len (k + 1) cs = true := by
  simp [Memory.cellsOk, and_assoc]

/-- Canonical cells hold nothing below the address they start at. -/
theorem lookupCell_of_lt (h : Memory.cellsOk len lo cs = true) (ha : a < lo) : lookupCell cs a = unlistedByte := by
  induction cs generalizing lo with
  | nil => rfl
  | cons c rest ih =>
    obtain ⟨hlo, -, -, hrest⟩ := cellsOk_cons.mp h
    have hne : c.1 ≠ a := by omega
    rw [lookupCell, if_neg hne, ih hrest (by omega)]

/-- Cells that start beyond a listed byte do not read as it does. -/
theorem lookupCell_head_ne (hb : b ≠ unlistedByte) (h : Memory.cellsOk len lo ds = true) (hk : k < lo) :
    lookupCell ((k, b) :: cs) k ≠ lookupCell ds k := by
  rwa [lookupCell_of_lt h hk, lookupCell, if_pos rfl]

/-- The cells after an equal first cell read alike wherever the whole lists do; at that cell's own address both
tails hold nothing. -/
theorem lookupCell_tail_eq (hcs : Memory.cellsOk len (k + 1) cs = true) (hds : Memory.cellsOk len (k + 1) ds = true)
    (h : lookupCell ((k, b) :: cs) a = lookupCell ((k, b) :: ds) a) : lookupCell cs a = lookupCell ds a := by
  by_cases hk : k = a
  · rw [lookupCell_of_lt hcs (by omega), lookupCell_of_lt hds (by omega)]
  · simpa [lookupCell, hk] using h

/-- Canonical cells that read alike at every address of the window are equal: the lower of two different first
addresses would be listed in one and not in the other. -/
theorem eq_of_lookupCell_eq (hcs : Memory.cellsOk len lo cs = true) (hds : Memory.cellsOk len lo ds = true)
    (h : ∀ a < len, lookupCell cs a = lookupCell ds a) : cs = ds := by
  induction cs generalizing lo ds with
  | nil =>
    cases ds with
    | nil => rfl
    | cons d ds =>
      obtain ⟨-, hlen, hb, -⟩ := cellsOk_cons.mp hds
      exact absurd (h d.1 hlen).symm (lookupCell_head_ne (len := len) hb rfl (Nat.lt_succ_self d.1))
  | cons c cs ih =>
    obtain ⟨k, b⟩ := c
    obtain ⟨-, hk, hb, hcs'⟩ := cellsOk_cons.mp hcs
    cases ds with
    | nil => exact absurd (h k hk) (lookupCell_head_ne (len := len) hb rfl (Nat.lt_succ_self k))
    | cons d ds =>
      obtain ⟨k', b'⟩ := d
      obtain ⟨-, hk', hb', hds'⟩ := cellsOk_cons.mp hds
      obtain hlt | rfl | hgt := lt_trichotomy k k'
      · exact absurd (h k hk) (lookupCell_head_ne hb (cellsOk_cons.mpr ⟨le_rfl, hk', hb', hds'⟩) hlt)
      · obtain rfl : b = b' := by simpa [lookupCell] using h k hk
        rw [ih hcs' hds' fun a ha => lookupCell_tail_eq hcs' hds' (h a ha)]
      · exact absurd (h k' hk').symm (lookupCell_head_ne hb' (cellsOk_cons.mpr ⟨le_rfl, hk, hb, hcs'⟩) hgt)

theorem byte_of_lt {m : Memory} (h : a < m.len) : m.byte a = some (lookupCell m.cells a) :=
  if_pos h

/-- Settles O4: the two lists of cells are canonical and read alike below the common length. -/
theorem canonicalWindowsWithEqualBytesAreEqual : Obligations.CanonicalWindowsWithEqualBytesAreEqual := by
  rintro ⟨len, cs⟩ ⟨len', ds⟩ hm hn hlen hbyte
  obtain rfl : len = len' := hlen
  have hcells : cs = ds := eq_of_lookupCell_eq hm hn fun a ha => by
    have h := hbyte a
    rw [byte_of_lt (m := ⟨len, cs⟩) ha, byte_of_lt (m := ⟨len, ds⟩) ha] at h
    exact Option.some.inj h
  rw [hcells]

end Sys2Proof.Machine
end

section
/-! The frame of an activation: the window stands, the cursor moves by whole words, and the outcome that stood before
is not read (R32, R146, R160). -/

namespace Sys2Proof.Machine

/-- From `s`, whatever outcome stands in it, `g` answers one next state: the window as it was, the cursor up to two
words further, an outcome present. -/
def WritesCursorAndOutcome (g : State → Host.Outcome State Fault Refusal) (s : State) : Prop :=
  ∃ k out, k ≤ 2 ∧ out ≠ .pending ∧ ∀ o, g { s with out := o } = .next ⟨s.window, s.pos + 2 * k, out⟩

/-- The resolver does not read the outcome: with any outcome standing it answers the same operand or the same error,
and leaves that outcome where it is (R81, R84). -/
theorem resolve_setOut (cfg : Config) (mode : AddrField) (reg : Reg) (size : OpSize) (s : State) :
    (∃ opd, ∀ o, resolve cfg mode reg size { s with out := o } =
      .ok opd { s with pos := s.pos + 2 * extWords mode reg, out := o }) ∨
    (∃ e, ∀ o, resolve cfg mode reg size { s with out := o } = .raised e { s with out := o }) := by
  by_cases h : extWords mode reg = 0 ∨ s.pos + 2 ≤ s.window.len
  · exact .inl ⟨dispatchTable mode reg size (s.wordAt s.pos), fun o => resolve_ok (s := { s with out := o }) h⟩
  · obtain ⟨he, hp⟩ := not_or.mp h
    have he1 := (extWords_cases mode reg).resolve_left he
    exact .inr ⟨truncatedAt cfg s.pos s.window.len, fun o => resolve_raised (s := { s with out := o }) he1 hp⟩

theorem assembleDouble_frame (m : Mnemonic) (f : DoubleFields) (s : State) :
    WritesCursorAndOutcome (assembleDouble Config.block m f) s := by
  have ha := extWords_le f.srcField f.srcReg
  have hb := extWords_le f.dstField f.dstReg
  obtain ⟨src, hs⟩ | ⟨e, hs⟩ := resolve_setOut Config.block f.srcField f.srcReg f.size s
  · obtain ⟨dst, hd⟩ | ⟨e, hd⟩ := resolve_setOut Config.block f.dstField f.dstReg f.size
      { s with pos := s.pos + 2 * extWords f.srcField f.srcReg }
    · refine ⟨extWords f.srcField f.srcReg + extWords f.dstField f.dstReg, .ok (doubleRecord m f.size src dst
        (s.pos + 2 * (extWords f.srcField f.srcReg + extWords f.dstField f.dstReg))), by omega, nofun, fun o => ?_⟩
      simp only [assembleDouble, hs, resolveDestination_block, hd, returnOk, consumed_eq, Nat.mul_add, Nat.add_assoc]
    · refine ⟨extWords f.srcField f.srcReg, .error e, by omega, nofun, fun o => ?_⟩
      simp only [assembleDouble, hs, resolveDestination_block, hd, raiseError]
  · refine ⟨0, .error e, Nat.zero_le 2, nofun, fun o => ?_⟩
    simp only [assembleDouble, hs, raiseError, Nat.mul_zero, Nat.add_zero]

theorem assembleSingle_frame (m : Mnemonic) (size : OpSize) (field : AddrField) (reg : Reg) (s : State) :
    WritesCursorAndOutcome (assembleSingle Config.block m size field reg) s := by
  have he := extWords_le field reg
  obtain ⟨opd, h⟩ | ⟨e, h⟩ := resolve_setOut Config.block field reg size s
  · refine ⟨extWords field reg, .ok (singleRecord m size opd (s.pos + 2 * extWords field reg)), by omega, nofun,
      fun o => ?_⟩
    simp only [assembleSingle, h, returnOk, consumed_eq]
  · refine ⟨0, .error e, Nat.zero_le 2, nofun, fun o => ?_⟩
    simp only [assembleSingle, h, raiseError, Nat.mul_zero, Nat.add_zero]

theorem returnOk_frame (r : InstrRecord) (s : State) : WritesCursorAndOutcome (returnOk r) s :=
  ⟨0, .ok r, Nat.zero_le 2, nofun, fun _ => rfl⟩

theorem exec_frame (i : Instr) (s : State) : WritesCursorAndOutcome (exec i) s := by
  obtain ⟨m, f, he⟩ | ⟨m, size, field, reg, he⟩ | ⟨r, he⟩ := exec_shape i
  · exact funext he ▸ assembleDouble_frame m f s
  · exact funext he ▸ assembleSingle_frame m size field reg s
  · exact funext he ▸ returnOk_frame r s

/-- Settles O30, by the frame of the three shared endings. -/
theorem instructionsWriteOnlyCursorAndOutcome : Obligations.InstructionsWriteOnlyCursorAndOutcome := by
  intro i s
  obtain ⟨k, out, hk, hout, h⟩ := exec_frame i s
  exact ⟨⟨s.window, s.pos + 2 * k, out⟩, h s.out, rfl, fun _ => rfl, hout, by dsimp only; omega, h⟩

theorem ok_or_error_of_ne_pending {o : Output} (h : o ≠ .pending) : (∃ r, o = .ok r) ∨ ∃ e, o = .error e := by
  cases o with
  | pending => exact absurd rfl h
  | ok r => exact .inl ⟨r, rfl⟩
  | error e => exact .inr ⟨e, rfl⟩

/-- An activation reads at most three words: the first, and up to two by the instruction's meaning (R22, R166). -/
theorem step_frame (s : State) :
    ∃ k out, k ≤ 3 ∧ out ≠ .pending ∧ step s = .next ⟨s.window, 2 * k, out⟩ := by
  obtain ⟨-, hs⟩ | ⟨-, e, -, hs⟩ | ⟨-, i, -, hs⟩ := step_cases s
  · exact ⟨0, .error _, by decide, nofun, hs⟩
  · exact ⟨1, .error e, by decide, nofun, hs⟩
  · obtain ⟨k, out, hk, hout, h⟩ := exec_frame i { s with pos := 2 }
    exact ⟨1 + k, out, by omega, hout, by rw [hs, Nat.mul_add]; exact h s.out⟩

/-- Settles O35, by the frame of the step. -/
theorem everyActivationEnds : Obligations.EveryActivationEnds := by
  intro s
  obtain ⟨k, out, hk, hout, h⟩ := step_frame s
  exact ⟨⟨s.window, 2 * k, out⟩, h, ok_or_error_of_ne_pending hout, by dsimp only; omega, rfl, fun _ => rfl⟩

end Sys2Proof.Machine
end

section
/-! The encoding direction of a first word: the fields of a word, written out again, agree with it on every bit the
decoder consults (R48 to R50, R58). -/

namespace Sys2Proof

open Claims

/-- Settles O6, by the round trip of each format. -/
theorem decodeOfEncodeIsTheInstruction : Obligations.DecodeOfEncodeIsTheInstruction :=
  fun _ hi => decodeWord_encode hi

/-- The size bit of a word is the one its size is written as (R15). -/
theorem sizeField_toBit (w : Word) : (sizeField w).toBit = slice w 6 6 := by
  have h : slice w 6 6 < 2 := slice_lt w 6 6
  unfold sizeField
  interval_cases slice w 6 6 <;> rfl

theorem encodeDouble_doubleFields {w : Word} {op : Nat} (h : slice w 15 12 = op) :
    encodeDouble op (doubleFields w) = w := by
  have hw := word_lt w
  have hd : slice w 7 7 < 2 := slice_lt w 7 7
  apply BitVec.eq_of_toNat_eq
  simp only [encodeDouble, doubleFields, regField_val, sizeField_toBit, number_ofNumber (slice_lt w 5 4),
    number_ofNumber (show slice w 7 7 < 4 by omega)]
  simp only [slice] at h ⊢
  rw [toNat_ofNat16 (by omega)]
  omega

theorem encodeSized_sizedFields {w : Word} {op : Nat} (h : slice w 15 7 = 32 + op) :
    encodeSized op (sizedFields w) = w := by
  have hw := word_lt w
  apply BitVec.eq_of_toNat_eq
  simp only [encodeSized, sizedFields, regField_val, sizeField_toBit, number_ofNumber (slice_lt w 5 4)]
  simp only [slice] at h ⊢
  rw [toNat_ofNat16 (by omega)]
  omega

/-- Bit 6 is the one bit of the word that is not written again. -/
theorem encodeUnsized_unsizedFields {w : Word} {op : Nat} (h : slice w 15 7 = 32 + op) :
    slice (encodeUnsized op (unsizedFields w)) 15 7 = slice w 15 7 ∧
      slice (encodeUnsized op (unsizedFields w)) 5 0 = slice w 5 0 := by
  have hw := word_lt w
  simp only [encodeUnsized, unsizedFields, regField_val, number_ofNumber (slice_lt w 5 4)]
  simp only [slice] at h ⊢
  rw [toNat_ofNat16 (by omega)]
  omega

theorem encodeJump_off10Field {w : Word} {cond : Nat} (h : slice w 15 10 = 8 + cond) :
    encodeJump cond (off10Field w) = w := by
  have hw := word_lt w
  apply BitVec.eq_of_toNat_eq
  simp only [encodeJump, off10Field, BitVec.toNat_ofNat]
  simp only [slice] at h ⊢
  omega

/-- The nine leading bits of a SingleOperand word: the six fixed ones, then the operation number (R49, R55). -/
theorem leadingBits_of_singleOperand {w : Word} (h : classify w = some .singleOperand) :
    slice w 15 7 = 32 + slice w 9 7 := by
  obtain ⟨hf, -⟩ | ⟨-, h10, -⟩ | ⟨hf, -⟩ := classify_cases h
  · cases hf
  · simp only [slice] at h10 ⊢
    omega
  · cases hf

/-- The six leading bits of a jump: the three fixed ones, then the condition (R50, R56). -/
theorem leadingBits_of_conditionalJump {w : Word} (h : classify w = some .conditionalJump) :
    slice w 15 10 = 8 + slice w 12 10 := by
  obtain ⟨hf, -⟩ | ⟨hf, -⟩ | ⟨-, h13⟩ := classify_cases h
  · cases hf
  · cases hf
  · simp only [slice] at h13 ⊢
    omega

theorem doubleInstr_sameConsulted {w : Word} {i : Instr} (h : doubleInstr w = some i) :
    SameConsulted i.mnemonic (encode i) w := by
  unfold doubleInstr at h
  split at h <;> cases h <;> exact encodeDouble_doubleFields ‹_›

theorem singleInstr_sameConsulted {w : Word} {i : Instr} (hp : slice w 15 7 = 32 + slice w 9 7)
    (h : singleInstr w = some i) : SameConsulted i.mnemonic (encode i) w := by
  unfold singleInstr at h
  split at h <;> rename_i hop <;> cases h <;> rw [hop] at hp
  case h_1 | h_3 | h_5 => exact encodeSized_sizedFields hp
  case h_2 | h_4 | h_6 => exact encodeUnsized_unsizedFields hp
  case h_7 => exact hp.symm

theorem jumpInstr_sameConsulted {w : Word} {i : Instr} (hp : slice w 15 10 = 8 + slice w 12 10)
    (h : jumpInstr w = some i) : SameConsulted i.mnemonic (encode i) w := by
  unfold jumpInstr at h
  split at h <;> rename_i hc <;> cases h <;> exact encodeJump_off10Field (hc ▸ hp)

/-- The word an instruction is written as agrees on every consulted bit with the word it was decoded from (R58). -/
theorem encode_sameConsulted {w : Word} {i : Instr} (h : decodeWord w = .ok i) :
    SameConsulted i.mnemonic (encode i) w := by
  obtain ⟨fmt, hc, hl⟩ := decodeWord_ok_cases h
  cases fmt with
  | doubleOperand => exact doubleInstr_sameConsulted hl
  | singleOperand => exact singleInstr_sameConsulted (leadingBits_of_singleOperand hc) hl
  | conditionalJump => exact jumpInstr_sameConsulted (leadingBits_of_conditionalJump hc) hl

/-- Settles O7: the fields of the word, written out again, are the bits consulted. -/
theorem encodeOfDecodeAgreesOnConsultedBits : Obligations.EncodeOfDecodeAgreesOnConsultedBits :=
  fun _ _ h => ⟨decodeWord_wf h, encode_sameConsulted h⟩

end Sys2Proof
end

section
/-! The opcode table: the fixed field of a word and the mnemonic it decodes to (R54 to R56). -/

namespace Sys2Proof

open Claims Laws.TableRow

theorem matchesWord_iff {m : Mnemonic} {w : Word} :
    m.matchesWord w = true ↔ slice w 15 m.fixedField.1 = m.fixedField.2 := by
  simp [Mnemonic.matchesWord]

/-- The word of every instruction has the fixed field of its row. -/
theorem encode_fixedField (i : Instr) : Statement i := by
  cases i
  case reti => exact reti
  case rrc f | rra f | push f => exact sized_fixed _ f (by decide)
  case swpb f | sxt f | call f => exact unsized_fixed _ f (by decide)
  case jne o | jeq o | jnc o | jc o | jn o | jge o | jl o | jmp o => exact jump_fixed _ o (by decide)
  all_goals exact double_fixed _ _ (by decide)

/-- The consulted bits hold the fixed field. -/
theorem fixedField_of_sameConsulted {m : Mnemonic} {v w : Word} (h : SameConsulted m v w) :
    slice v 15 m.fixedField.1 = slice w 15 m.fixedField.1 := by
  cases m
  case reti => exact h
  case swpb | sxt | call => exact h.1
  all_goals exact congrArg (slice · 15 _) h

/-- A decoded word has the fixed field of its mnemonic's row. -/
theorem matchesWord_of_decodeWord {w : Word} {i : Instr} (h : decodeWord w = .ok i) :
    i.mnemonic.matchesWord w = true :=
  matchesWord_iff.mpr ((fixedField_of_sameConsulted (encode_sameConsulted h)).symm.trans (encode_fixedField i))

/-- A classified word decodes to an instruction of the mnemonic that the lookup finds. -/
theorem decodeWord_mnemonic {w : Word} {fmt : Format} {m : Mnemonic} (hc : classify w = some fmt)
    (hl : (lookup fmt w).map Instr.mnemonic = some m) : ∃ i, decodeWord w = .ok i ∧ i.mnemonic = m := by
  obtain ⟨i, hi, hm⟩ := Option.map_eq_some_iff.mp hl
  exact ⟨i, decodeWord_of_lookup hc hi, hm⟩

/-- A word with the fixed field of a row decodes to that row's mnemonic: the field says the class, and within the
class it is what the map looks up. -/
theorem decodeWord_of_matchesWord {w : Word} {m : Mnemonic} (h : m.matchesWord w = true) :
    ∃ i, decodeWord w = .ok i ∧ i.mnemonic = m := by
  have hf := matchesWord_iff.mp h
  cases m
  case rrc | swpb | rra | sxt | push | call | reti =>
    obtain ⟨hc, hop⟩ := classify_single (hf.trans (Nat.add_comm _ 32)) (by decide)
    exact decodeWord_mnemonic hc (by rw [lookup, singleInstr, hop]; rfl)
  case jne | jeq | jnc | jc | jn | jge | jl | jmp =>
    obtain ⟨hc, hcond⟩ := classify_jump (hf.trans (Nat.add_comm _ 8)) (by decide)
    exact decodeWord_mnemonic hc (by rw [lookup, jumpInstr, hcond]; rfl)
  all_goals
    have hn : slice w 15 12 = _ := hf
    exact decodeWord_mnemonic (classify_double (by rw [hn]; decide)) (by rw [lookup, doubleInstr, hn]; rfl)

/-- Settles O9, each direction by its lemma. -/
theorem opcodeTableFixesTheMnemonic : Obligations.OpcodeTableFixesTheMnemonic :=
  fun _ _ => ⟨fun ⟨_, hi, hm⟩ => hm ▸ matchesWord_of_decodeWord hi, decodeWord_of_matchesWord⟩

/-- Settles O5, by running the decoder on the ten words. -/
theorem wordsWrittenFromTheFormatsDecode : Obligations.WordsWrittenFromTheFormatsDecode :=
  ⟨rfl, rfl, rfl, rfl, rfl, rfl, rfl, rfl, rfl, rfl⟩

end Sys2Proof
end

section
/-! The classes as ranges of the first word (R47, R57), and how many words each holds (R63). -/

namespace Sys2Proof

theorem jumpBits_iff {w : Word} : slice w 15 13 = 1 ↔ 0x2000 ≤ w.toNat ∧ w.toNat ≤ 0x3FFF := by
  have := word_lt w
  simp only [slice]
  omega

theorem doubleBits_iff {w : Word} : 4 ≤ slice w 15 12 ↔ 0x4000 ≤ w.toNat := by
  have := word_lt w
  simp only [slice]
  omega

theorem singleBits_iff {w : Word} :
    slice w 15 10 = 4 ∧ slice w 9 7 ≤ 6 ↔ 0x1000 ≤ w.toNat ∧ w.toNat ≤ 0x137F := by
  have := word_lt w
  simp only [slice]
  omega

/-- The classifier by ranges of the word's value (R47). -/
theorem classify_eq (w : Word) : classify w =
    if 0x2000 ≤ w.toNat ∧ w.toNat ≤ 0x3FFF then some .conditionalJump
    else if 0x4000 ≤ w.toNat then some .doubleOperand
    else if 0x1000 ≤ w.toNat ∧ w.toNat ≤ 0x137F then some .singleOperand
    else none := by
  simp only [classify, jumpBits_iff, doubleBits_iff, singleBits_iff]

theorem classify_conditionalJump_iff {w : Word} :
    classify w = some .conditionalJump ↔ 0x2000 ≤ w.toNat ∧ w.toNat ≤ 0x3FFF := by
  rw [classify_eq]
  split_ifs <;> simp <;> omega

theorem classify_doubleOperand_iff {w : Word} : classify w = some .doubleOperand ↔ 0x4000 ≤ w.toNat := by
  rw [classify_eq]
  split_ifs <;> simp <;> omega

theorem classify_singleOperand_iff {w : Word} :
    classify w = some .singleOperand ↔ 0x1000 ≤ w.toNat ∧ w.toNat ≤ 0x137F := by
  rw [classify_eq]
  split_ifs <;> simp <;> omega

theorem classify_none_iff {w : Word} :
    classify w = none ↔ w.toNat ≤ 0x0FFF ∨ (0x1380 ≤ w.toNat ∧ w.toNat ≤ 0x1FFF) := by
  rw [classify_eq]
  split_ifs <;> simp <;> omega

/-- Settles O11, one class at a time. -/
theorem classifierSplitsTheWordsIntoRanges : Obligations.ClassifierSplitsTheWordsIntoRanges :=
  fun _ => ⟨classify_conditionalJump_iff, classify_doubleOperand_iff, classify_singleOperand_iff, classify_none_iff⟩

/-- How many of the first `n` numbers satisfy a predicate, from the set of those that do. -/
theorem length_filter_range {n : Nat} {p : Nat → Prop} [DecidablePred p] {s : Finset Nat}
    (h : ∀ k, k ∈ s ↔ k < n ∧ p k) : ((List.range n).filter (fun k => p k)).length = s.card := by
  have hs : s = (Finset.range n).filter p := by
    ext k
    rw [h, Finset.mem_filter, Finset.mem_range]
  rw [hs]
  rfl

/-- How many words are in a class, from the set of the values that are. -/
theorem count_classify {c : Option Format} {s : Finset Nat}
    (h : ∀ w : Word, classify w = c ↔ w.toNat ∈ s) (hs : ∀ k ∈ s, k < 65536) :
    ((List.range 65536).filter (fun k => classify (BitVec.ofNat 16 k) = c)).length = s.card :=
  length_filter_range fun k => by
    constructor
    · intro hk
      exact ⟨hs k hk, (h _).mpr (by rwa [toNat_ofNat16 (hs k hk)])⟩
    · rintro ⟨hlt, hk⟩
      rwa [h, toNat_ofNat16 hlt] at hk

/-- Settles O12: each class is a range of values, and the unknown words are those below `0x2000` that are not
SingleOperand words. -/
theorem firstWordCountsByClass : Obligations.FirstWordCountsByClass := by
  refine ⟨?_, ?_, ?_, ?_⟩
  · rw [count_classify (s := Finset.Ico 0x4000 0x10000), Nat.card_Ico]
    · intro w
      have := word_lt w
      rw [classify_doubleOperand_iff, Finset.mem_Ico]
      omega
    · simp
  · rw [count_classify (s := Finset.Icc 0x2000 0x3FFF), Nat.card_Icc]
    · intro w
      rw [classify_conditionalJump_iff, Finset.mem_Icc]
    · intro k hk
      have := Finset.mem_Icc.mp hk
      omega
  · rw [count_classify (s := Finset.Icc 0x1000 0x137F), Nat.card_Icc]
    · intro w
      rw [classify_singleOperand_iff, Finset.mem_Icc]
    · intro k hk
      have := Finset.mem_Icc.mp hk
      omega
  · rw [count_classify (s := Finset.range 0x2000 \ Finset.Icc 0x1000 0x137F), Finset.card_sdiff_of_subset,
      Finset.card_range, Nat.card_Icc]
    · intro k hk
      have := Finset.mem_Icc.mp hk
      rw [Finset.mem_range]
      omega
    · intro w
      rw [classify_none_iff, Finset.mem_sdiff, Finset.mem_range, Finset.mem_Icc]
      omega
    · intro k hk
      have := Finset.mem_range.mp (Finset.mem_sdiff.mp hk).1
      omega

end Sys2Proof
end

section
/-! How an extension word is read (R51). -/

namespace Sys2Proof.Machine

theorem signed16_toNat (x : Word) : signed 16 x.toNat = x.toInt := by
  have := word_lt x
  rw [signed16_eq, BitVec.toInt_eq_toNat_cond]
  split_ifs <;> omega

/-- A cell of the table reads no word, or holds its signed value as an offset, or its unsigned value as an address or
as an immediate. -/
theorem dispatchTable_mode_cases (mode : AddrField) (reg : Reg) (size : OpSize) (x : Word) :
    (dispatchTable mode reg size x).consumed = false ∨
      (dispatchTable mode reg size x).mode = .indexed x.toInt ∨
      (dispatchTable mode reg size x).mode = .absolute x.toNat ∨
      (dispatchTable mode reg size x).mode = .immediate x.toNat := by
  cases mode
  case f00 => rw [dispatchTable_f00, resolve00]; split_ifs <;> exact .inl rfl
  case f10 => rw [dispatchTable_f10, resolve10]; split_ifs <;> exact .inl rfl
  case f01 =>
    rw [dispatchTable_f01, signed16_toNat]
    split_ifs
    · exact .inl rfl
    · exact .inr (.inr (.inl rfl))
    · exact .inr (.inl rfl)
  case f11 =>
    rw [dispatchTable_f11]
    split_ifs
    · exact .inr (.inr (.inr rfl))
    all_goals exact .inl rfl

/-- Settles O15: the resolved operand is a cell of the table. -/
theorem extensionWordIsReadAsItsModeSays : Obligations.ExtensionWordIsReadAsItsModeSays := by
  intro mode reg size s t o h
  have hw := word_lt (s.wordAt s.pos)
  have hr := signed16_toNat (s.wordAt s.pos) ▸ signed16_range hw
  have hle : (s.wordAt s.pos).toNat ≤ 65535 := by omega
  obtain hc | hm | hm | hm := eq_dispatchTable_of_resolve h ▸ dispatchTable_mode_cases mode reg size (s.wordAt s.pos)
  · refine ⟨fun _ ho => ?_, fun _ ho => ?_, fun _ ho => ?_⟩ <;> simp [Operand.consumed, ho] at hc
  · rw [hm]
    exact ⟨by rintro _ ⟨⟩; exact ⟨rfl, hr⟩, nofun, nofun⟩
  · rw [hm]
    exact ⟨nofun, by rintro _ ⟨⟩; exact ⟨rfl, hle⟩, nofun⟩
  · rw [hm]
    exact ⟨nofun, nofun, by rintro _ ⟨⟩; exact ⟨rfl, hle⟩⟩

end Sys2Proof.Machine
end

section
/-! Which error each part of an activation can raise (R142, R143). -/

namespace Sys2Proof.Machine

open Claims

/-- An instruction's meaning gives a record or `TruncatedInput` (R84). -/
theorem exec_outcome_cases (i : Instr) (s : State) :
    (∃ r, outcomeOf (exec i s) = .ok r) ∨ ∃ n a, outcomeOf (exec i s) = .error (.truncatedInput n a) := by
  obtain ⟨m, f, he⟩ | ⟨m, size, field, reg, he⟩ | ⟨r, he⟩ := exec_shape i
  · rw [he]
    obtain ⟨_, _, _, -, -, -, h⟩ | ⟨-, -, h⟩ | ⟨-, -, -, h⟩ := assembleDouble_cases m f s
    · exact .inl ⟨_, by rw [h, outcomeOf_returnOk]⟩
    · exact .inr ⟨_, _, by rw [h, outcomeOf_raiseError]⟩
    · exact .inr ⟨_, _, by rw [h, outcomeOf_raiseError]⟩
  · rw [he]
    obtain ⟨_, _, -, -, h⟩ | ⟨-, -, h⟩ := assembleSingle_cases m size field reg s
    · exact .inl ⟨_, by rw [h, outcomeOf_returnOk]⟩
    · exact .inr ⟨_, _, by rw [h, outcomeOf_raiseError]⟩
  · exact .inl ⟨r, by rw [he, outcomeOf_returnOk]⟩

/-- An activation gives a record, `TruncatedInput`, or `UnknownOpcode` with an unknown first word (R140 to R142). -/
theorem step_outcome_cases (s : State) :
    (∃ r, outcomeOf (step s) = .ok r) ∨ (∃ n a, outcomeOf (step s) = .error (.truncatedInput n a)) ∨
      (2 ≤ s.window.len ∧ classify (s.wordAt 0) = none ∧
        outcomeOf (step s) = .error (.unknownOpcode (s.wordAt 0))) := by
  obtain ⟨-, hs⟩ | ⟨hlen, e, he, hs⟩ | ⟨-, i, -, hs⟩ := step_cases s
  · exact .inr (.inl ⟨_, _, by rw [hs, outcomeOf_raiseError]⟩)
  · obtain ⟨rfl, hc⟩ := decodeWord_error_cases he
    exact .inr (.inr ⟨hlen, hc, by rw [hs, outcomeOf_raiseError]⟩)
  · rw [hs]
    obtain h | h := exec_outcome_cases i { s with pos := 2 }
    · exact .inl h
    · exact .inr (.inl h)

/-- Settles O38: it is none of the outcomes of an activation. -/
theorem reservedEncodingIsNeverRaised : Obligations.ReservedEncodingIsNeverRaised := by
  intro s t w h
  have ht : outcomeOf (step s) = t.out := by rw [h]; rfl
  rw [← ht]
  obtain ⟨r, hr⟩ | ⟨n, a, hr⟩ | ⟨-, -, hr⟩ := step_outcome_cases s
  all_goals
    rw [hr]
    nofun

theorem decodeWord_of_classify_none {w : Word} (h : classify w = none) : decodeWord w = .error (.unknownOpcode w) := by
  simp [decodeWord, h]

/-- The word at address 0 of a presented window is its first word (R33). -/
theorem wordAt_present_firstWord (s : State) (bs : List Byte) : (s.present bs).wordAt 0 = firstWord bs :=
  wordAt_present s bs 0

/-- Settles O37: only an unknown first word gives `UnknownOpcode`, and it always does. -/
theorem unknownOpcodeExactlyInItsRanges : Obligations.UnknownOpcodeExactlyInItsRanges := by
  intro bs w
  rw [← classify_none_iff, decodeWindow]
  constructor
  · intro h
    obtain ⟨r, hr⟩ | ⟨n, a, hr⟩ | ⟨hlen, hc, hr⟩ := step_outcome_cases (State.reset.present bs)
    · cases hr.symm.trans h
    · cases hr.symm.trans h
    · obtain rfl : _ = w := by simpa using hr.symm.trans h
      exact ⟨hlen, wordAt_present_firstWord .., hc⟩
  · rintro ⟨hlen, rfl, hc⟩
    rw [← wordAt_present_firstWord State.reset] at hc ⊢
    rw [step_unknown hlen (decodeWord_of_classify_none hc), outcomeOf_raiseError]

end Sys2Proof.Machine
end

section
/-! A record gives back the instruction it was assembled from, so the first words of one record are those of one
instruction, which differ in ignored bits only (R58). -/

namespace Sys2Proof

open Claims

/-- Two words that agree with a third on the consulted bits agree with each other. -/
theorem sameConsulted_of_common {m : Mnemonic} {u v w : Word} (h : SameConsulted m u v) (h' : SameConsulted m u w) :
    SameConsulted m v w := by
  cases m
  case reti => exact Eq.trans (Eq.symm h) h'
  case swpb | sxt | call => exact ⟨h.1.symm.trans h'.1, h.2.symm.trans h'.2⟩
  all_goals exact Eq.trans (Eq.symm h) h'

theorem unsizedFields_congr {v w : Word} (h : slice v 5 0 = slice w 5 0) : unsizedFields v = unsizedFields w := by
  have hf : slice v 5 4 = slice w 5 4 ∧ slice v 3 0 = slice w 3 0 := by
    simp only [slice] at h ⊢
    omega
  rw [unsizedFields, unsizedFields, hf.1, regField_eq (reg := regField w 0) (hf.2.trans (regField_val w 0).symm)]

/-- A first word may be replaced by one that agrees on the consulted bits: the instruction stays the same. -/
theorem decodeWord_of_sameConsulted {v w : Word} {i : Instr} (h : decodeWord w = .ok i)
    (hs : SameConsulted i.mnemonic v w) : decodeWord v = .ok i := by
  have hw := matchesWord_iff.mp (matchesWord_of_decodeWord h)
  have hv := (fixedField_of_sameConsulted hs).trans hw
  cases i
  case reti =>
    obtain ⟨hc, hop⟩ := classify_single (hv.trans (Nat.add_comm _ 32)) (by decide)
    exact decodeWord_of_lookup hc (by rw [lookup, singleInstr, hop]; rfl)
  case swpb f | sxt f | call f =>
    obtain ⟨hcv, hopv⟩ := classify_single (hv.trans (Nat.add_comm _ 32)) (by decide)
    obtain ⟨hcw, hopw⟩ := classify_single (hw.trans (Nat.add_comm _ 32)) (by decide)
    have hl : lookup .singleOperand v = lookup .singleOperand w := by
      simp only [lookup, singleInstr, hopv, hopw, unsizedFields_congr hs.2]
    obtain ⟨fmt, hc, hlw⟩ := decodeWord_ok_cases h
    obtain rfl := Option.some.inj (hc.symm.trans hcw)
    exact decodeWord_of_lookup hcv (hl.trans hlw)
  all_goals
    obtain rfl : v = w := hs
    exact h

namespace Machine

/-- The field and register of a cell of the table are those its operand is written as (R80, read backwards). -/
theorem fieldAndReg_dispatchTable (mode : AddrField) (reg : Reg) (size : OpSize) (x : Word) :
    (dispatchTable mode reg size x).fieldAndReg = (mode, reg) := by
  cases mode <;> fin_cases reg <;> rfl

theorem assembleDouble_ok {m : Mnemonic} {f : DoubleFields} {s : State} {r : InstrRecord}
    (h : outcomeOf (assembleDouble Config.block m f s) = .ok r) :
    ∃ src dst p, r = doubleRecord m f.size src dst p ∧ src.fieldAndReg = (f.srcField, f.srcReg) ∧
      dst.fieldAndReg = (f.dstField, f.dstReg) := by
  obtain ⟨src, dst, p, -, hsrc, hdst, hr⟩ | ⟨-, -, hr⟩ | ⟨-, -, -, hr⟩ := assembleDouble_cases m f s <;>
    rw [hr] at h <;> cases h
  refine ⟨src, dst, p, rfl, ?_, ?_⟩
  · rw [eq_dispatchTable_of_resolve hsrc, fieldAndReg_dispatchTable]
  · rw [eq_dispatchTable_of_resolve hdst, fieldAndReg_dispatchTable]

theorem assembleSingle_ok {m : Mnemonic} {size : OpSize} {field : AddrField} {reg : Reg} {s : State}
    {r : InstrRecord} (h : outcomeOf (assembleSingle Config.block m size field reg s) = .ok r) :
    ∃ opd p, r = singleRecord m size opd p ∧ opd.fieldAndReg = (field, reg) := by
  obtain ⟨opd, p, -, hopd, hr⟩ | ⟨-, -, hr⟩ := assembleSingle_cases m size field reg s <;>
    rw [hr] at h <;> cases h
  exact ⟨opd, p, rfl, by rw [eq_dispatchTable_of_resolve hopd, fieldAndReg_dispatchTable]⟩

/-- The ten bits a jump's offset is written as are those it was read from (R112). -/
theorem ofNat_unsigned_jumpOffset (off10 : BitVec 10) :
    BitVec.ofNat 10 (unsigned 10 (jumpOffset off10).1) = off10 := by
  rw [jumpOffset, unsigned10_signed off10.isLt, BitVec.ofNat_toNat, BitVec.setWidth_eq]

/-- The instruction a record stands for is the one whose meaning gave it. -/
theorem instr_of_exec_ok {i : Instr} {s : State} {r : InstrRecord} (h : outcomeOf (exec i s) = .ok r) :
    r.instr = i := by
  cases i
  case reti =>
    cases h
    rfl
  case rrc f | rra f | push f | swpb f | sxt f | call f =>
    obtain ⟨opd, p, rfl, ho⟩ := assembleSingle_ok h
    simp [InstrRecord.instr, singleRecord, ho]
  case jne o | jeq o | jnc o | jc o | jn o | jge o | jl o | jmp o =>
    cases h
    simp [InstrRecord.instr, jumpRecord, ofNat_unsigned_jumpOffset]
  all_goals
    obtain ⟨src, dst, p, rfl, hs, hd⟩ := assembleDouble_ok h
    simp [InstrRecord.instr, doubleRecord, hs, hd]

theorem instr_mnemonic (r : InstrRecord) : r.instr.mnemonic = r.mnemonic := by
  obtain ⟨m, _⟩ := r
  cases m <;> rfl

/-- The state in which the meaning of a window's first word `w` runs (R72). -/
def afterFirstWord (w : Word) (rest : List Byte) : State :=
  { State.reset.present (bytesOfWord w ++ rest) with pos := 2 }

theorem afterFirstWord_len (w : Word) (rest : List Byte) :
    (afterFirstWord w rest).window.len = rest.length + 2 := rfl

/-- The word at the cursor is the first of what follows. -/
theorem wordAt_afterFirstWord (w : Word) (rest : List Byte) :
    (afterFirstWord w rest).wordAt 2 =
      wordOfBytes ((rest[0]?).getD unlistedByte) ((rest[1]?).getD unlistedByte) :=
  wordAt_present State.reset (bytesOfWord w ++ rest) 2

theorem two_le_len_of_bytesOfWord (w : Word) (rest : List Byte) :
    2 ≤ (State.reset.present (bytesOfWord w ++ rest)).window.len := by
  simp [bytesOfWord]

theorem decodeWindow_known {w : Word} {i : Instr} (h : decodeWord w = .ok i) (rest : List Byte) :
    decodeWindow (bytesOfWord w ++ rest) = outcomeOf (exec i (afterFirstWord w rest)) := by
  rw [decodeWindow, step_known (two_le_len_of_bytesOfWord w rest) (by rwa [wordAt_present_zero]), afterFirstWord]

/-- A window that gives a record starts with a word of the instruction that the record stands for. -/
theorem decodeWord_of_decodeWindow {w : Word} {rest : List Byte} {r : InstrRecord}
    (h : decodeWindow (bytesOfWord w ++ rest) = .ok r) : decodeWord w = .ok r.instr := by
  cases hd : decodeWord w with
  | ok i => rw [instr_of_exec_ok ((decodeWindow_known hd rest).symm.trans h)]
  | error e =>
    rw [decodeWindow, step_unknown (two_le_len_of_bytesOfWord w rest) (by rwa [wordAt_present_zero])] at h
    cases h

/-- The assembly of a single operand ends alike from two states with as many bytes left and the same next word. -/
theorem assembleSingle_congr {s t : State} (hlen : s.window.len = t.window.len) (hpos : s.pos = t.pos)
    (hword : s.wordAt s.pos = t.wordAt t.pos) (m : Mnemonic) (size : OpSize) (field : AddrField) (reg : Reg) :
    outcomeOf (assembleSingle Config.block m size field reg s) =
      outcomeOf (assembleSingle Config.block m size field reg t) := by
  unfold assembleSingle
  by_cases hf : extWords field reg = 0 ∨ s.pos + 2 ≤ s.window.len
  · rw [resolve_ok hf, resolve_ok (by omega), hword]
    simp [hpos]
  · have := extWords_cases field reg
    rw [resolve_raised (by omega) (by omega), resolve_raised (by omega) (by omega), hlen, hpos]
    rfl

/-- First words that agree on the consulted bits may be exchanged before the same rest: only a SingleOperand meaning
stands behind two different ones, and it reads the rest alone. -/
theorem exec_afterFirstWord_congr {v w : Word} {i : Instr} (h : SameConsulted i.mnemonic v w) (rest : List Byte) :
    outcomeOf (exec i (afterFirstWord v rest)) = outcomeOf (exec i (afterFirstWord w rest)) := by
  cases i
  case reti => rfl
  case swpb f | sxt f | call f =>
    refine assembleSingle_congr (s := afterFirstWord v rest) (t := afterFirstWord w rest) ?_ rfl ?_ _ _ _ _
    · rw [afterFirstWord_len, afterFirstWord_len]
    · exact (wordAt_afterFirstWord v rest).trans (wordAt_afterFirstWord w rest).symm
  all_goals
    obtain rfl : v = w := h
    rfl

/-- Settles O8: two words of one record are words of the one instruction it stands for, and agree with its encoding on
the consulted bits; a word that agrees on those is decoded to the same instruction, which runs on the same rest. -/
theorem aliasedFirstWordsAreThoseOfIgnoredBits : Obligations.AliasedFirstWordsAreThoseOfIgnoredBits := by
  intro w v rest r h
  have hw := decodeWord_of_decodeWindow h
  rw [← instr_mnemonic r]
  constructor
  · intro hv
    exact sameConsulted_of_common (encode_sameConsulted (decodeWord_of_decodeWindow hv)) (encode_sameConsulted hw)
  · intro hs
    rw [decodeWindow_known (decodeWord_of_sameConsulted hw hs), exec_afterFirstWord_congr hs,
      ← decodeWindow_known hw, h]

end Machine
end Sys2Proof
end

section
/-! The word cursor answers the word that the window holds there, or raises in place (R65 to R67). -/

namespace Sys2Proof.Machine

/-- Where the bounds check passes, the word read is the one that the window defines at that address (R7, R33). -/
theorem word_eq_wordAt {s : State} {a : Nat} (h : a + 2 ≤ s.window.len) : s.window.word a = some (s.wordAt a) := by
  rw [word_eq, if_pos h, State.wordAt]

/-- Settles O1: the word at the cursor is made of the two bytes there, low byte first. -/
theorem takeWordReadsLittleEndianAndAdvances : Obligations.TakeWordReadsLittleEndianAndAdvances := by
  intro s
  constructor
  · intro h
    exact ⟨_, _, s.wordAt s.pos, byte_of_lt (by omega), byte_of_lt (by omega), takeWord_ok (by omega),
      wordOfBytes_toNat _ _⟩
  · intro h
    exact takeWord_raised (by omega)

/-- Settles O2: the test is the one of `take_word`, at `pos + offset`. -/
theorem peekWordReadsWithoutAdvancing : Obligations.PeekWordReadsWithoutAdvancing := by
  intro s offset
  refine ⟨rfl, ?_, ?_⟩
  · intro h
    exact ⟨s.wordAt (s.pos + offset), word_eq_wordAt (by omega), peekWord_ok (by omega)⟩
  · intro h
    exact peekWord_raised (by omega)

end Sys2Proof.Machine
end

section
/-! The opcode lookup stays in the format that was classified (R73, R29), and a window's bytes decode as its first word
does, so that a step runs the instruction they decode to (R72, R146). -/

namespace Sys2Proof

/-- What the lookup of a format finds has a mnemonic of that format (R29, R54 to R56). -/
theorem lookup_format {fmt : Format} {w : Word} {i : Instr} (h : lookup fmt w = some i) : i.mnemonic.format = fmt := by
  cases fmt with
  | conditionalJump =>
    rw [lookup, jumpInstr] at h
    split at h <;> cases h <;> rfl
  | doubleOperand =>
    rw [lookup, doubleInstr] at h
    split at h <;> cases h <;> rfl
  | singleOperand =>
    rw [lookup, singleInstr] at h
    split at h <;> cases h <;> rfl

/-- Settles O10: the lookup is total on classified words, and each of its maps holds mnemonics of one format. -/
theorem lookupNeverFailsAfterClassification : Obligations.LookupNeverFailsAfterClassification := by
  intro w fmt h
  obtain ⟨i, hi⟩ := lookup_total h
  exact ⟨i, hi, lookup_format hi⟩

/-- Fewer than two bytes are `TruncatedInput` (R74). -/
theorem decodeBytes_short {bs : List Byte} (h : bs.length < 2) :
    decodeBytes bs = .error (.truncatedInput 2 bs.length) := by
  match bs, h with
  | [], _ => rfl
  | [_], _ => rfl

namespace Machine

/-- The bytes of a window of at least two start with those at addresses 0 and 1 (R31). -/
theorem toBytes_of_two_le {m : Memory} (h : 2 ≤ m.len) :
    ∃ rest, m.toBytes = lookupCell m.cells 0 :: lookupCell m.cells 1 :: rest := by
  obtain ⟨n, hn⟩ := Nat.exists_eq_add_of_le' h
  rw [Memory.toBytes, hn, List.range_succ_eq_map, List.range_succ_eq_map]
  exact ⟨_, rfl⟩

/-- The bytes of a window that holds a word decode as that word does (R46). -/
theorem decodeBytes_toBytes {s : State} (h : 2 ≤ s.window.len) :
    decodeBytes s.window.toBytes = decodeWord (s.wordAt 0) := by
  obtain ⟨rest, hrest⟩ := toBytes_of_two_le h
  rw [hrest]
  rfl

/-- Settles O31: a window that holds a first word steps as that word decodes, and a shorter one decodes to the error
that its step answers. -/
theorem stepRunsTheDecodedInstruction : Obligations.StepRunsTheDecodedInstruction := by
  intro s
  by_cases hlen : 2 ≤ s.window.len
  · rw [decodeBytes_toBytes hlen, if_neg (by omega)]
    exact ⟨fun i hi => ⟨decodeWord_wf hi, step_known hlen hi⟩, fun e he => step_unknown hlen he⟩
  · rw [decodeBytes_short (by rw [toBytes_length]; omega), toBytes_length, if_pos (by omega)]
    refine ⟨nofun, ?_⟩
    rintro _ ⟨⟩
    exact step_short hlen

end Machine
end Sys2Proof
end

section
/-! The resolver as the dispatch table, and what it does to the cursor (R80, R81). -/

namespace Sys2Proof.Machine

/-- The fields and registers whose cells read a word (R53, R81). -/
theorem extWords_eq_one_iff {mode : AddrField} {reg : Reg} :
    extWords mode reg = 1 ↔ (mode = .f01 ∧ reg ≠ 3) ∨ (mode = .f11 ∧ reg = 0) := by
  unfold extWords
  split_ifs <;> simp_all

/-- A cell that reads no word is the same operand whatever word stands at the cursor. -/
theorem dispatchTable_congr {mode : AddrField} {reg : Reg} (h : extWords mode reg = 0) (size : OpSize) (x y : Word) :
    dispatchTable mode reg size x = dispatchTable mode reg size y := by
  cases mode with
  | f00 => rw [dispatchTable_f00, dispatchTable_f00]
  | f10 => rw [dispatchTable_f10, dispatchTable_f10]
  | f01 =>
    have h3 : reg = 3 := by simpa [extWords] using h
    simp [h3]
  | f11 =>
    have h0 : reg ≠ 0 := by simpa [extWords] using h
    simp [h0]

/-- An operand counts as consuming a word exactly when its cell reads one (R20, R81). -/
theorem dispatchTable_consumed_iff {mode : AddrField} {reg : Reg} {size : OpSize} {x : Word} :
    (dispatchTable mode reg size x).consumed = true ↔ extWords mode reg = 1 := by
  rw [← dispatchTable_consumed mode reg size x]
  simp

/-- A resolved operand leaves everything but the cursor as it was, and the cursor past what its cell reads. -/
theorem state_of_resolve {cfg : Config} {mode : AddrField} {reg : Reg} {size : OpSize} {s t : State} {o : Operand}
    (h : resolve cfg mode reg size s = .ok o t) : t = { s with pos := s.pos + 2 * extWords mode reg } := by
  obtain ⟨he, _, -, hr⟩ | ⟨he, -, _, -, hr⟩ | ⟨-, -, hr⟩ := resolve_cases cfg mode reg size s
  · cases hr.symm.trans h
    rw [he]
    rfl
  · cases hr.symm.trans h
    rw [he]
  · cases hr.symm.trans h

/-- Settles O13: a cell that reads no word does not depend on one, a cell that reads one is that of the word at the
cursor, and without that word the resolver raises in place. -/
theorem resolverFollowsTheDispatchTable : Obligations.ResolverFollowsTheDispatchTable := by
  intro mode reg size s
  refine ⟨fun he x => ?_, fun he hlen => ?_, fun he hlen => ?_⟩
  · rw [resolve_ok (.inl he), he, dispatchTable_congr he size _ x]
    rfl
  · rw [resolve_ok (.inr hlen), he]
  · rw [resolve_raised he (by omega), truncatedAt_block]

/-- Settles O14: the resolved operand is the table's cell, which consumes what `extWords` counts. -/
theorem operandConsumesAWordExactlyByItsMode : Obligations.OperandConsumesAWordExactlyByItsMode := by
  intro mode reg size s t o h
  obtain rfl := eq_dispatchTable_of_resolve h
  refine ⟨dispatchTable_consumed_iff.trans extWords_eq_one_iff, ?_⟩
  rw [state_of_resolve h, ← dispatchTable_consumed mode reg size (s.wordAt s.pos), mul_ite]

/-- Settles O17: of the four columns only field `11` reads the size, and of its registers only those that are neither
the program counter nor a constant generator. -/
theorem sizeChoosesOnlyTheIncrement : Obligations.SizeChoosesOnlyTheIncrement := by
  intro mode reg s
  constructor
  · intro h
    cases mode with
    | f00 | f01 | f10 => rfl
    | f11 =>
      obtain rfl | rfl | rfl : reg = 0 ∨ reg = 2 ∨ reg = 3 := by tauto
      all_goals rfl
  · rintro rfl h0 h2 h3
    have hinc (size : OpSize) : resolve Config.block .f11 reg size s =
        .ok (regOperand reg (.registerIndirectAutoIncrement (incOf size))) s := by
      simp [resolve, resolve11, h0, h2, h3]
    exact ⟨hinc .byte, hinc .word⟩

end Sys2Proof.Machine
end

section
/-! A missing extension word is the only error of the resolver, and it passes through every caller (R84). -/

namespace Sys2Proof.Machine

section

variable {cfg : Config} {mode : AddrField} {reg : Reg} {size : OpSize} {s s' : State} {e : DecodeError}

/-- `take_word` raises where the bounds check fails, and leaves the state as it was (R65). -/
theorem takeWord_eq_raised_iff :
    takeWord cfg s = .raised e s' ↔
      ¬ s.pos + 2 ≤ s.window.len ∧ truncatedAt cfg s.pos s.window.len = e ∧ s = s' := by
  by_cases h : s.pos + 2 ≤ s.window.len
  · simp [takeWord_ok h, h]
  · simp [takeWord_raised h, h]

/-- The resolver raises exactly what `take_word` raises where the operand needs a word. -/
theorem resolve_eq_raised_iff :
    resolve cfg mode reg size s = .raised e s' ↔ extWords mode reg = 1 ∧ takeWord cfg s = .raised e s' := by
  obtain ⟨he, o, -, hr⟩ | ⟨he, hlen, o, -, hr⟩ | ⟨he, hlen, hr⟩ := resolve_cases cfg mode reg size s
  · simp [hr, he]
  · simp [hr, takeWord_ok hlen]
  · simp [hr, he, takeWord_raised hlen]

/-- The same at a destination, where the parameter of D5 may make register 3 need a word too (U4). -/
theorem resolveDestination_eq_raised_iff :
    resolveDestination cfg mode reg size s = .raised e s' ↔
      (extWords mode reg = 1 ∨ (cfg.dstCg2Indexed = true ∧ mode = .f01 ∧ reg = 3)) ∧
        takeWord cfg s = .raised e s' := by
  unfold resolveDestination
  split
  case isTrue hcg2 => cases takeWord cfg s <;> simp [hcg2]
  case isFalse hcg2 => rw [resolve_eq_raised_iff, or_iff_left hcg2]

theorem assembleSingle_of_raised (h : resolve cfg mode reg size s = .raised e s') (m : Mnemonic) :
    assembleSingle cfg m size mode reg s = raiseError e s' := by
  rw [assembleSingle, h]

theorem assembleDouble_of_source_raised {f : DoubleFields}
    (h : resolve cfg f.srcField f.srcReg f.size s = .raised e s') (m : Mnemonic) :
    assembleDouble cfg m f s = raiseError e s' := by
  rw [assembleDouble, h]

theorem assembleDouble_of_destination_raised {f : DoubleFields} {s0 : State} {src : Operand}
    (hsrc : resolve cfg f.srcField f.srcReg f.size s0 = .ok src s)
    (hdst : resolveDestination cfg f.dstField f.dstReg f.size s = .raised e s') (m : Mnemonic) :
    assembleDouble cfg m f s0 = raiseError e s' := by
  simp only [assembleDouble, hsrc, hdst]

end

/-- Settles O16: both resolvers raise what `take_word` raised, in the same state, and an assembly that meets the error
raises it there. -/
theorem resolverErrorsPropagateAtOnce : Obligations.ResolverErrorsPropagateAtOnce := by
  intro cfg mode reg size s s' e
  refine ⟨fun he ht => ⟨resolve_eq_raised_iff.mpr ⟨he, ht⟩, resolveDestination_eq_raised_iff.mpr ⟨.inl he, ht⟩⟩,
    fun hcfg ht => resolveDestination_eq_raised_iff.mpr ⟨.inr ⟨hcfg, rfl, rfl⟩, ht⟩, fun hr => ?_,
    fun srcField srcReg src s0 hsrc hdst => ?_⟩
  · obtain ⟨-, ht⟩ := resolve_eq_raised_iff.mp hr
    obtain ⟨-, -, rfl⟩ := takeWord_eq_raised_iff.mp ht
    exact ⟨ht, assembleSingle_of_raised hr, fun m dstField dstReg =>
      assembleDouble_of_source_raised (f := ⟨reg, dstField, size, mode, dstReg⟩) hr m⟩
  · obtain ⟨-, ht⟩ := resolveDestination_eq_raised_iff.mp hdst
    obtain ⟨-, -, rfl⟩ := takeWord_eq_raised_iff.mp ht
    exact ⟨ht, assembleDouble_of_destination_raised (f := ⟨srcReg, mode, size, srcField, reg⟩) hsrc hdst⟩

end Sys2Proof.Machine
end

section
/-! The destination of a DoubleOperand record is a cell of the table's first two columns, by the first word's fields
(R48, R82). -/

namespace Sys2Proof.Machine

open Claims

/-- A window that gives a record starts with a known first word, whose meaning gave it (R72). -/
theorem exec_of_decodeWindow_ok {bs : List Byte} {r : InstrRecord} (h : decodeWindow bs = .ok r) :
    ∃ i, decodeWord (firstWord bs) = .ok i ∧
      outcomeOf (exec i { State.reset.present bs with pos := 2 }) = .ok r := by
  rw [decodeWindow] at h
  obtain ⟨-, hs⟩ | ⟨-, e, -, hs⟩ | ⟨-, i, hi, hs⟩ := step_cases (State.reset.present bs) <;> rw [hs] at h
  · cases h
  · cases h
  · exact ⟨i, wordAt_present_firstWord State.reset bs ▸ hi, h⟩

/-- The record of an instruction has the format of its mnemonic (R29). -/
theorem format_of_exec_ok {i : Instr} {s : State} {r : InstrRecord} (h : outcomeOf (exec i s) = .ok r) :
    r.format = i.mnemonic.format := by
  cases i
  case reti | jne | jeq | jnc | jc | jn | jge | jl | jmp =>
    cases h
    rfl
  case rrc | rra | push | swpb | sxt | call =>
    obtain ⟨opd, p, rfl, -⟩ := assembleSingle_ok h
    rfl
  all_goals
    obtain ⟨src, dst, p, rfl, -⟩ := assembleDouble_ok h
    rfl

/-- Every instruction of the map of R54 is assembled from the fields of its word (R48, R85). -/
theorem exec_of_doubleInstr {w : Word} {i : Instr} (h : doubleInstr w = some i) :
    ∃ m, ∀ s, exec i s = assembleDouble Config.block m (doubleFields w) s := by
  unfold doubleInstr at h
  split at h <;> cases h <;> exact ⟨_, fun _ => rfl⟩

/-- The destination that `assemble_double` reports is the cell of its field and register (R80, R85). -/
theorem destination_of_assembleDouble {m : Mnemonic} {f : DoubleFields} {s : State} {r : InstrRecord}
    (h : outcomeOf (assembleDouble Config.block m f s) = .ok r) :
    ∃ x, r.destination = some (dispatchTable f.dstField f.dstReg f.size x) := by
  obtain ⟨src, dst, p, -, -, hdst, hr⟩ | ⟨-, -, hr⟩ | ⟨-, -, -, hr⟩ := assembleDouble_cases m f s <;>
    rw [hr] at h <;> cases h
  exact ⟨_, congrArg some (eq_dispatchTable_of_resolve hdst)⟩

/-- The destination of a DoubleOperand record is the cell of `Ad` and the register field of its first word. -/
theorem destination_of_decodeWindow {bs : List Byte} {r : InstrRecord} (h : decodeWindow bs = .ok r)
    (hf : r.format = .doubleOperand) :
    ∃ size x, r.destination = some
      (dispatchTable (AddrField.ofNumber (slice (firstWord bs) 7 7)) (regField (firstWord bs) 0) size x) := by
  obtain ⟨i, hi, hr⟩ := exec_of_decodeWindow_ok h
  obtain ⟨fmt, -, hl⟩ := decodeWord_ok_cases hi
  obtain rfl : fmt = .doubleOperand := by rw [← lookup_format hl, ← format_of_exec_ok hr, hf]
  obtain ⟨m, he⟩ := exec_of_doubleInstr hl
  rw [he] at hr
  exact ⟨_, destination_of_assembleDouble hr⟩

/-- Settles O18: `Ad` is one bit, which chooses the column, and the register chooses the shape within it. -/
theorem destinationIsOneOfTheFiveShapes : Obligations.DestinationIsOneOfTheFiveShapes := by
  intro bs r h hf
  obtain ⟨size, x, hd⟩ := destination_of_decodeWindow h hf
  refine ⟨_, hd, ?_⟩
  dsimp only
  have hAd : slice (firstWord bs) 7 7 < 2 := slice_lt (firstWord bs) 7 7
  generalize regField (firstWord bs) 0 = dst
  obtain hA | hA : slice (firstWord bs) 7 7 = 0 ∨ slice (firstWord bs) 7 7 = 1 := by omega
  · rw [hA, AddrField.ofNumber, dispatchTable_f00, resolve00]
    split_ifs with h3
    · exact .inr (.inl ⟨rfl, h3, rfl⟩)
    · exact .inl ⟨rfl, h3, rfl⟩
  · rw [hA, AddrField.ofNumber, dispatchTable_f01]
    split_ifs with h3 h2
    · exact .inr (.inr (.inr (.inr ⟨rfl, h3, rfl⟩)))
    · exact .inr (.inr (.inr (.inl ⟨rfl, h2, _, rfl⟩)))
    · exact .inr (.inr (.inl ⟨rfl, h2, h3, _, rfl⟩))

end Sys2Proof.Machine
end

section
/-! The DoubleOperand instructions: the next state of `assemble_double` at each of its three ends (R85, R99), and the
same from the window's first word (R48, R54). -/

namespace Sys2Proof.Machine

open Claims

section

variable {f : DoubleFields} {s : State}

/-- An operand whose word is there where it needs one is the table's cell, and the cursor moves past what it read. -/
theorem resolve_ok_of_word {cfg : Config} {mode : AddrField} {reg : Reg} {size : OpSize}
    (h : extWords mode reg = 1 → s.pos + 2 ≤ s.window.len) :
    resolve cfg mode reg size s =
      .ok (dispatchTable mode reg size (s.wordAt s.pos)) { s with pos := s.pos + 2 * extWords mode reg } :=
  resolve_ok ((extWords_cases mode reg).imp_right h)

/-- With both operands' words in the window the assembly completes (R85). -/
theorem assembleDouble_done (hs : extWords f.srcField f.srcReg = 1 → s.pos + 2 ≤ s.window.len)
    (hd : extWords f.dstField f.dstReg = 1 → afterSource f s + 2 ≤ s.window.len) (m : Mnemonic) :
    assembleDouble Config.block m f s = .next (doubleDone m f s) := by
  have hdst := resolve_ok_of_word (cfg := Config.block) (size := f.size) (s := { s with pos := afterSource f s }) hd
  rw [afterSource] at hdst
  simp only [assembleDouble, resolve_ok_of_word hs, resolveDestination_block, hdst]
  rfl

/-- Without the source's word the assembly raises at the cursor (R99). -/
theorem assembleDouble_source_missing (he : extWords f.srcField f.srcReg = 1) (hp : s.window.len < s.pos + 2)
    (m : Mnemonic) : assembleDouble Config.block m f s = .next (truncatedAtCursor s.pos s) := by
  rw [assembleDouble_of_source_raised (resolve_raised he (by omega)), truncatedAt_block]
  rfl

/-- Without the destination's word the assembly raises at the cursor after the source (R99). -/
theorem assembleDouble_destination_missing (hs : extWords f.srcField f.srcReg = 1 → s.pos + 2 ≤ s.window.len)
    (he : extWords f.dstField f.dstReg = 1) (hp : s.window.len < afterSource f s + 2) (m : Mnemonic) :
    assembleDouble Config.block m f s = .next (truncatedAtCursor (afterSource f s) s) := by
  have hdst := resolve_raised (cfg := Config.block) (size := f.size) (s := { s with pos := afterSource f s }) he
    (Nat.not_le_of_lt hp)
  rw [← resolveDestination_block] at hdst
  rw [assembleDouble_of_destination_raised (resolve_ok_of_word hs) hdst, truncatedAt_block]
  rfl

end

/-- Settles O22: each of the twelve is the assembly with its mnemonic. -/
theorem doubleOperandInstructionsComplete : Obligations.DoubleOperandInstructionsComplete := by
  intro f s hs hd
  have done := assembleDouble_done hs hd
  exact ⟨done _, done _, done _, done _, done _, done _, done _, done _, done _, done _, done _, done _⟩

/-- The twelve DoubleOperand constructors all mean the assembly (R87 to R98). -/
theorem exec_eq_assembleDouble {i : DoubleFields → Instr}
    (hi : i ∈ [Instr.mov, .add, .addc, .subc, .sub, .cmp, .dadd, .bit, .bic, .bis, .xor, .and]) (f : DoubleFields) :
    exec (i f) = assembleDouble Config.block (i f).mnemonic f := by
  fin_cases hi <;> rfl

/-- Settles O23: the assembly raises at the first of its two reads that finds no word. -/
theorem doubleOperandInstructionsTruncate : Obligations.DoubleOperandInstructionsTruncate := by
  intro i f s hi
  rw [exec_eq_assembleDouble hi]
  exact ⟨fun he hp => assembleDouble_source_missing he hp _,
    fun hs he hp => assembleDouble_destination_missing hs he hp _⟩

/-- An instruction of the map of R54 is assembled with the mnemonic of its word's nibble, from the word's fields. -/
theorem exec_eq_assembleDouble_of_doubleInstr {w : Word} {i : Instr} (h : doubleInstr w = some i) :
    exec i = assembleDouble Config.block (dblMnemonic (slice w 15 12)) (doubleFields w) := by
  unfold doubleInstr at h
  split at h <;> cases h
  all_goals
    rename_i hn
    rw [hn]
    rfl

/-- A window whose first word is a DoubleOperand word answers what the assembly of its fields does (R48, R72). -/
theorem decodeWindow_double {w : Word} (h : 4 ≤ slice w 15 12) (rest : List Byte) :
    decodeWindow (bytesOfWord w ++ rest) = outcomeOf
      (assembleDouble Config.block (dblMnemonic (slice w 15 12)) (doubleFields w) (afterFirstWord w rest)) := by
  obtain ⟨i, hi⟩ := doubleInstr_total h
  rw [decodeWindow_known (decodeWord_of_lookup (classify_double h) hi), exec_eq_assembleDouble_of_doubleInstr hi]

/-- The word at an address after the first word is the one the presented bytes hold there (R33). -/
theorem wordAt_afterFirstWord_bytes (w : Word) (rest : List Byte) (a : Nat) :
    (afterFirstWord w rest).wordAt a = wordAtOffset (bytesOfWord w ++ rest) a :=
  wordAt_present State.reset (bytesOfWord w ++ rest) a

/-- Settles O32: the three ends of the assembly, run after the first word. -/
theorem doubleOperandWindowGivesItsRecord : Obligations.DoubleOperandWindowGivesItsRecord := by
  intro w rest h bs size srcMode dstMode p q
  have hbs : 2 ≤ bs.length := two_le_len_of_bytesOfWord w rest
  have ha := extWords_cases srcMode (regField w 8)
  have hb := extWords_cases dstMode (regField w 0)
  have hsrc (hp : p ≤ bs.length) : extWords srcMode (regField w 8) = 1 → 2 + 2 ≤ bs.length := by omega
  rw [decodeWindow_double h]
  refine ⟨fun hq => ?_, fun hp => ?_, fun hp hq => ?_⟩
  · have hdst : extWords dstMode (regField w 0) = 1 → p + 2 ≤ bs.length := by omega
    rw [assembleDouble_done (hsrc (by omega)) hdst, ← wordAt_afterFirstWord_bytes, ← wordAt_afterFirstWord_bytes]
    rfl
  · have hcut : extWords srcMode (regField w 8) = 1 ∧ bs.length < 2 + 2 := by omega
    rw [assembleDouble_source_missing hcut.1 hcut.2]
    rfl
  · have hcut : extWords dstMode (regField w 0) = 1 ∧ bs.length < p + 2 := by omega
    rw [assembleDouble_destination_missing (hsrc hp) hcut.1 hcut.2]
    rfl

end Sys2Proof.Machine
end

section
/-! The SingleOperand instructions: the next state of `assemble_single` at each of its two ends (R100, R110), and the
same from the window's first word (R49, R55, R101). -/

namespace Sys2Proof.Machine

open Claims

section

variable {field : AddrField} {reg : Reg} {s : State}

/-- With the operand's word in the window the assembly completes (R100). -/
theorem assembleSingle_done (h : extWords field reg = 1 → s.pos + 2 ≤ s.window.len) (m : Mnemonic) (size : OpSize) :
    assembleSingle Config.block m size field reg s = .next (singleDone m size field reg s) := by
  rw [assembleSingle, resolve_ok_of_word h]
  rfl

/-- Without the operand's word the assembly raises at the cursor (R110). -/
theorem assembleSingle_missing (he : extWords field reg = 1) (hp : s.window.len < s.pos + 2) (m : Mnemonic)
    (size : OpSize) : assembleSingle Config.block m size field reg s = .next (truncatedAtCursor s.pos s) := by
  rw [assembleSingle_of_raised (resolve_raised he (by omega)), truncatedAt_block]
  rfl

end

/-- Settles O24: each of the three is the assembly with its mnemonic and the size of its size bit. -/
theorem sizedSingleOperandInstructionsComplete : Obligations.SizedSingleOperandInstructionsComplete := by
  intro f s h
  have done (m : Mnemonic) := assembleSingle_done h m f.size
  exact ⟨done .rrc, done .rra, done .push⟩

/-- Settles O25: each of the three is the assembly with its mnemonic and size Word. -/
theorem unsizedSingleOperandInstructionsComplete : Obligations.UnsizedSingleOperandInstructionsComplete := by
  intro f s h
  have done (m : Mnemonic) := assembleSingle_done h m .word
  exact ⟨done .swpb, done .sxt, done .call⟩

/-- Settles O26: the assembly raises at its one read, whatever the mnemonic and the size. -/
theorem singleOperandInstructionsTruncate : Obligations.SingleOperandInstructionsTruncate := by
  intro size field reg s he hp
  have cut := assembleSingle_missing he hp
  exact ⟨cut .rrc size, cut .rra size, cut .push size, cut .swpb .word, cut .sxt .word, cut .call .word⟩

/-- Settles O27: RETI resolves no operand, so its meaning is its record at every state. -/
theorem retiCompletesEverywhere : Obligations.RetiCompletesEverywhere := fun _ => rfl

/-- The size of a SingleOperand word: the operations 0, 2 and 4 honour the size bit, the others are Word (R101). -/
def singleSize (w : Word) : OpSize :=
  if (slice w 9 7 = 0 ∨ slice w 9 7 = 2 ∨ slice w 9 7 = 4) ∧ slice w 6 6 = 1 then .byte else .word

theorem singleSize_of_variant {w : Word} (h : slice w 9 7 = 0 ∨ slice w 9 7 = 2 ∨ slice w 9 7 = 4) :
    singleSize w = sizeField w := by
  simp only [singleSize, sizeField, h, true_and]

theorem singleSize_of_invariant {w : Word} (h : ¬ (slice w 9 7 = 0 ∨ slice w 9 7 = 2 ∨ slice w 9 7 = 4)) :
    singleSize w = .word :=
  if_neg fun hs => h hs.1

/-- An instruction of the map of R55 that takes an operand is assembled with the mnemonic of its word's operation
number, from the word's fields (R101). -/
theorem exec_eq_assembleSingle_of_singleInstr {w : Word} {i : Instr} (h : singleInstr w = some i)
    (hop : slice w 9 7 ≠ 6) :
    exec i = assembleSingle Config.block (sglMnemonic (slice w 9 7)) (singleSize w)
      (AddrField.ofNumber (slice w 5 4)) (regField w 0) := by
  unfold singleInstr at h
  split at h <;> rename_i hn <;> cases h
  case h_1 | h_3 | h_5 =>
    rw [singleSize_of_variant (by omega), hn]
    rfl
  case h_2 | h_4 | h_6 =>
    rw [singleSize_of_invariant (by omega), hn]
    rfl
  case h_7 => exact absurd hn hop

section

variable {w : Word} (hlo : 0x1000 ≤ w.toNat) (hhi : w.toNat ≤ 0x137F)

include hlo hhi

/-- A word of the class decodes to what the map of R55 holds for it (R49). -/
theorem decodeWord_of_singleInstr {i : Instr} (h : singleInstr w = some i) : decodeWord w = .ok i :=
  decodeWord_of_lookup (classify_singleOperand_iff.mpr ⟨hlo, hhi⟩) h

/-- A window whose first word is an operation 6 answers the record of RETI (R108). -/
theorem decodeWindow_reti (hop : slice w 9 7 = 6) (rest : List Byte) :
    decodeWindow (bytesOfWord w ++ rest) = .ok retiRecord := by
  have hi : singleInstr w = some .reti := by simp [singleInstr, hop]
  rw [decodeWindow_known (decodeWord_of_singleInstr hlo hhi hi)]
  rfl

/-- A window whose first word is another SingleOperand word answers what the assembly of its fields does (R72). -/
theorem decodeWindow_single (hop : slice w 9 7 ≠ 6) (rest : List Byte) :
    decodeWindow (bytesOfWord w ++ rest) = outcomeOf
      (assembleSingle Config.block (sglMnemonic (slice w 9 7)) (singleSize w) (AddrField.ofNumber (slice w 5 4))
        (regField w 0) (afterFirstWord w rest)) := by
  obtain ⟨-, hop6⟩ := singleBits_iff.mpr ⟨hlo, hhi⟩
  obtain ⟨i, hi⟩ := singleInstr_total hop6
  rw [decodeWindow_known (decodeWord_of_singleInstr hlo hhi hi), exec_eq_assembleSingle_of_singleInstr hi hop]

end

/-- Settles O33: operation 6 answers RETI's record, the others the two ends of the assembly, run after the first
word. -/
theorem singleOperandWindowGivesItsRecord : Obligations.SingleOperandWindowGivesItsRecord := by
  intro w rest hlo hhi bs op size mode p
  have hbs : 2 ≤ bs.length := two_le_len_of_bytesOfWord w rest
  have hext := extWords_cases mode (regField w 0)
  refine ⟨fun hop => decodeWindow_reti hlo hhi hop rest, fun hop hp => ?_, fun hop hp => ?_⟩
  · have hword : extWords mode (regField w 0) = 1 → 2 + 2 ≤ bs.length := by omega
    rw [decodeWindow_single hlo hhi hop, assembleSingle_done hword, ← wordAt_afterFirstWord_bytes]
    rfl
  · have hcut : extWords mode (regField w 0) = 1 ∧ bs.length < 2 + 2 := by omega
    rw [decodeWindow_single hlo hhi hop, assembleSingle_missing hcut.1 hcut.2]
    rfl

end Sys2Proof.Machine
end

section
/-! The jumps: the offsets of the 10-bit field (R112), the next state of `assemble_jump` (R113), and the record of the
window's first word (R50, R56). -/

namespace Sys2Proof.Machine

open Claims

/-- The 10-bit value of R6 is the one that the pseudocode of R112 computes. -/
theorem signed10_eq_offsetWords (v : Nat) : signed 10 v = offsetWords v := by
  rw [signed10_eq, offsetWords]
  split_ifs <;> omega

theorem signed10_toNat (x : BitVec 10) : signed 10 x.toNat = x.toInt := by
  have := x.isLt
  rw [signed10_eq, BitVec.toInt_eq_toNat_cond]
  split_ifs <;> omega

/-- Doubling an integer shifts its pattern left by one place. -/
theorem ofInt16_two_mul (z : Int) : BitVec.ofInt 16 (2 * z) = BitVec.ofInt 16 z <<< 1 := by
  rw [BitVec.shiftLeft_eq_mul_twoPow, BitVec.ofInt_mul, BitVec.mul_comm]
  rfl

/-- Settles O29: the field's value is `signed 10`, in the range and with the two readings of the lemmas above. -/
theorem jumpOffsetIsTheSignedField : Obligations.JumpOffsetIsTheSignedField := by
  intro off10
  obtain ⟨hlo, hhi⟩ := signed10_range off10.isLt
  have hpat : BitVec.ofInt 16 (jumpOffset off10).1 = off10.signExtend 16 :=
    congrArg (BitVec.ofInt 16) (signed10_toNat off10)
  refine ⟨signed10_eq_offsetWords _, rfl, hlo, hhi, signed10_toNat off10, hpat, ?_⟩
  rw [← hpat]
  exact ofInt16_two_mul _

/-- The assembly completes at every state (R113): it reads no word, so only the outcome changes. -/
theorem assembleJump_done (m : Mnemonic) (c : Condition) (off10 : BitVec 10) (s : State) :
    assembleJump m c off10 s = .next (jumpDone m c off10 s) := by
  rw [jumpDone, ← signed10_eq_offsetWords]
  rfl

/-- Settles O28: each of the eight is the assembly with its mnemonic and condition. -/
theorem jumpsCompleteEverywhere : Obligations.JumpsCompleteEverywhere := by
  intro o s
  have done (m : Mnemonic) (c : Condition) := assembleJump_done m c o s
  exact ⟨done .jne 0, done .jeq 1, done .jnc 2, done .jc 3, done .jn 4, done .jge 5, done .jl 6, done .jmp 7⟩

/-- An instruction of the map of R56 is assembled with the condition of its word and that condition's mnemonic, from
the word's offset field. -/
theorem exec_eq_assembleJump_of_jumpInstr {w : Word} {i : Instr} (h : jumpInstr w = some i) :
    ∃ c : Condition, c.val = slice w 12 10 ∧ exec i = assembleJump (jmpMnemonic (slice w 12 10)) c (off10Field w) := by
  refine ⟨⟨slice w 12 10, slice_lt w 12 10⟩, rfl, ?_⟩
  unfold jumpInstr at h
  split at h <;> cases h
  all_goals
    rename_i hn
    simp only [hn]
    rfl

theorem classify_of_jumpBits {w : Word} (h : slice w 15 13 = 1) : classify w = some .conditionalJump :=
  classify_conditionalJump_iff.mpr (jumpBits_iff.mp h)

theorem off10Field_toNat (w : Word) : (off10Field w).toNat = slice w 9 0 :=
  Nat.mod_eq_of_lt (slice_lt w 9 0)

/-- Settles O34: the first word's map entry is an assembly, which completes whatever bytes follow. -/
theorem jumpWindowGivesItsRecord : Obligations.JumpWindowGivesItsRecord := by
  intro w rest h
  obtain ⟨i, hi⟩ := jumpInstr_total w
  obtain ⟨c, hc, hexec⟩ := exec_eq_assembleJump_of_jumpInstr hi
  refine ⟨c, hc, ?_⟩
  rw [decodeWindow_known (decodeWord_of_lookup (classify_of_jumpBits h) hi), hexec, assembleJump_done, jumpDone,
    off10Field_toNat]
  rfl

end Sys2Proof.Machine
end

section
/-! The numerals of the formatter (R127, R129): the digits of a natural number in base 10 are its shortest decimal
numeral, and the only one. -/

namespace Sys2Proof.Machine

open Claims

theorem toDigits_ten_of_le {n : Nat} (h : 10 ≤ n) :
    Nat.toDigits 10 n = Nat.toDigits 10 (n / 10) ++ [Nat.digitChar (n % 10)] := by
  rw [Nat.toDigits_eq_if (by decide), if_neg (by omega)]

theorem decimalValue_toDigits (n : Nat) : decimalValue (Nat.toDigits 10 n) = n := Nat.ofDigitChars_ten_toDigits

theorem decimalValue_concat (digits : List Char) (c : Char) :
    decimalValue (digits ++ [c]) = 10 * decimalValue digits + (c.toNat - 48) := by
  simp [decimalValue]

theorem isDigit_of_mem_toDigits {n : Nat} {c : Char} (h : c ∈ Nat.toDigits 10 n) : c.isDigit = true :=
  Nat.isDigit_of_mem_toDigits (by decide) (by decide) h

theorem toNat_range_of_isDigit {c : Char} (h : c.isDigit = true) : 48 ≤ c.toNat ∧ c.toNat ≤ 57 := by
  simpa [Char.isDigit, UInt32.le_iff_toNat_le] using h

theorem digitChar_toNat_sub {c : Char} (hlo : 48 ≤ c.toNat) (hhi : c.toNat ≤ 57) : (c.toNat - 48).digitChar = c := by
  rw [← Char.toNat_inj, Nat.toNat_digitChar_of_lt_ten (by omega)]
  omega

/-- Only the number 0 has a leading zero, since every digit before the last is a digit of `n / 10`. -/
theorem toDigits_of_leading_zero (n : Nat) :
    (Nat.toDigits 10 n).head? = some '0' → Nat.toDigits 10 n = ['0'] := by
  induction n using Nat.strong_induction_on with
  | _ n ih =>
    by_cases hn : n < 10
    · rw [Nat.toDigits_of_lt_base hn]
      simp
    · intro hz
      rw [toDigits_ten_of_le (by omega), List.head?_append_of_ne_nil _ Nat.toDigits_ne_nil] at hz
      have hv := decimalValue_toDigits (n / 10)
      rw [ih (n / 10) (by omega) hz, show decimalValue ['0'] = 0 from rfl] at hv
      omega

theorem isDigitsOf_toDigits (n : Nat) : IsDigitsOf n (Nat.toDigits 10 n) :=
  ⟨Nat.toDigits_ne_nil, fun _ hc => toNat_range_of_isDigit (isDigit_of_mem_toDigits hc), decimalValue_toDigits n,
    toDigits_of_leading_zero n⟩

/-- A numeral without its last digit is the numeral of `n / 10`, which is not 0, or it would be a leading zero. -/
theorem eq_toDigits_of_isDigitsOf {n : Nat} {text : List Char} (h : IsDigitsOf n text) :
    text = Nat.toDigits 10 n := by
  induction text using List.reverseRecOn generalizing n with
  | nil => exact absurd rfl h.1
  | append_singleton digits c ih =>
    obtain ⟨-, hdigit, hv, hzero⟩ := h
    obtain ⟨hlo, hhi⟩ := hdigit c (by simp)
    rw [decimalValue_concat] at hv
    by_cases hnil : digits = []
    · subst hnil
      obtain rfl : c.toNat - 48 = n := by simpa [decimalValue] using hv
      rw [Nat.toDigits_of_lt_base (by omega), digitChar_toNat_sub hlo hhi, List.nil_append]
    · have hhead : digits.head? ≠ some '0' := fun hz =>
        hnil (by simpa using congrArg List.length (hzero (by rwa [List.head?_append_of_ne_nil _ hnil])))
      have hdigits := ih ⟨hnil, fun d hd => hdigit d (by simp [hd]), rfl, fun hz => absurd hz hhead⟩
      have hpos : decimalValue digits ≠ 0 := fun h0 => hhead (by rw [hdigits, h0]; rfl)
      have hlast : n % 10 = c.toNat - 48 := by omega
      have hinit : n / 10 = decimalValue digits := by omega
      rw [toDigits_ten_of_le (by omega), hlast, hinit, digitChar_toNat_sub hlo hhi, ← hdigits]

theorem isDigitsOf_iff {n : Nat} {text : List Char} : IsDigitsOf n text ↔ text = Nat.toDigits 10 n :=
  ⟨eq_toDigits_of_isDigitsOf, fun h => h ▸ isDigitsOf_toDigits n⟩

theorem numeral_of_nonneg {z : Int} (h : 0 ≤ z) : numeral Config.block z = Nat.toDigits 10 z.natAbs :=
  if_neg (by omega)

theorem numeral_of_neg {z : Int} (h : z < 0) : numeral Config.block z = '-' :: Nat.toDigits 10 z.natAbs :=
  if_pos h

/-- `dec(z)` is the formatter's numeral of `z`, and no other text is (R127). -/
theorem isDecimal_iff {z : Int} {text : List Char} : IsDecimal z text ↔ text = numeral Config.block z := by
  unfold IsDecimal
  simp only [isDigitsOf_iff, exists_eq_right]
  obtain h | h := lt_or_ge z 0
  · simp [numeral_of_neg h, h]
  · simp [numeral_of_nonneg h, h]

/-- Settles O53: the form of a decimal numeral leaves exactly the formatter's text. -/
theorem numeralsAreShortestDecimals : Obligations.NumeralsAreShortestDecimals :=
  fun _ => ⟨isDecimal_iff.mpr rfl, fun _ => isDecimal_iff.mp⟩

end Sys2Proof.Machine
end

section
/-! The text of an operand and of a record against the templates (R125 to R130). -/

namespace Sys2Proof.Machine

open Claims

theorem registerName_eq (n : Reg) : registerName n = regName n := by
  fin_cases n <;> rfl

theorem spelling_toList (m : Mnemonic) : (spelling m).toList = m.text := by
  cases m <;> rfl

/-- The template of an operand's mode admits the formatter's text and no other (R127, R128). -/
theorem isOperandText_iff {o : Operand} (h : o.regOk = true) {text : List Char} :
    IsOperandText o text ↔ text = renderOperand Config.block o := by
  obtain ⟨reg, mode⟩ := o
  cases mode with
  | immediate val | absolute addr | constant c => simp [IsOperandText, renderOperand, isDecimal_iff]
  | registerDirect | indexed off | registerIndirect | registerIndirectAutoIncrement inc =>
    obtain ⟨n, rfl⟩ := Option.isSome_iff_exists.mp h
    simp [IsOperandText, renderOperand, regText, isDecimal_iff, registerName_eq]

/-- Settles O54: the template of each mode leaves exactly the formatter's text. -/
theorem operandTextFollowsItsTemplate : Obligations.OperandTextFollowsItsTemplate :=
  fun _ h => ⟨(isOperandText_iff h).mpr rfl, fun _ => (isOperandText_iff h).mp⟩

theorem render_toList (r : InstrRecord) : (render r).toList = renderChars Config.block r := String.toList_ofList

section
variable {r : InstrRecord} {o p : Operand} {cfg : Config}

theorem renderChars_conditionalJump {ob : Int} (hf : r.format = .conditionalJump) (hob : r.offsetBytes = some ob) :
    renderChars cfg r = r.mnemonic.text ++ [' ', '$'] ++ numeral cfg ob := by
  simp [renderChars, renderJump, hf, hob]

theorem renderChars_twoOperands (hf : r.format ≠ .conditionalJump) (hs : r.source = some o)
    (hd : r.destination = some p) : renderChars cfg r =
      r.mnemonic.text ++ sizeSuffix r.size ++ [' '] ++ renderOperand cfg o ++ [',', ' '] ++ renderOperand cfg p := by
  simp [renderChars, hf, hs, hd]

theorem renderChars_destinationOnly (hf : r.format ≠ .conditionalJump) (hs : r.source = none)
    (hd : r.destination = some o) :
    renderChars cfg r = r.mnemonic.text ++ sizeSuffix r.size ++ [' '] ++ renderOperand cfg o := by
  simp [renderChars, hf, hs, hd]

theorem renderChars_noOperand (hf : r.format ≠ .conditionalJump) (hs : r.source = none)
    (hd : r.destination = none) : renderChars cfg r = r.mnemonic.text ++ sizeSuffix r.size := by
  simp [renderChars, hf, hs, hd]

end

/-- A record the block outputs meets the record invariants (R16 to R20, R29). -/
theorem wf_of_decodeWindow {bs : List Byte} {r : InstrRecord} (h : decodeWindow bs = .ok r) : r.wf = true := by
  obtain ⟨t, hs, -⟩ := everyActivationEnds (State.reset.present bs)
  have hout : t.out = .ok r := by rwa [decodeWindow, hs] at h
  have hinv := stepKeepsTheInvariant _ t (present_wf _ bs) hs
  simp only [State.Inv, hout, Bool.and_eq_true] at hinv
  exact hinv.2

theorem regOk_of_wf {size : OpSize} {o : Operand} (h : o.wf size = true) : o.regOk = true := by
  simp only [Operand.wf, Bool.and_eq_true] at h
  obtain ⟨⟨⟨hreg, -⟩, -⟩, -⟩ := h
  exact hreg

/-- Every record of the domain meets R19 and names its registers as R17 says, those `decode` outputs among them. -/
theorem checks_of_inFormatterDomain {r : InstrRecord} (h : InFormatterDomain r) :
    r.formatOk = true ∧ r.presenceOk = true ∧ r.sizeOk = true ∧ r.offsetsOk = true ∧
      (∀ o, r.source = some o → o.regOk = true) ∧ ∀ o, r.destination = some o → o.regOk = true := by
  obtain ⟨bs, hbs⟩ | h := h
  · have hwf := wf_of_decodeWindow hbs
    simp only [InstrRecord.wf, InstrRecord.operandsOk, Bool.and_eq_true] at hwf
    obtain ⟨⟨⟨⟨⟨⟨hfmt, hpres⟩, ⟨hs, hd⟩, -⟩, hsize⟩, -⟩, hoff⟩, -⟩ := hwf
    exact ⟨hfmt, hpres, hsize, hoff, fun o ho => regOk_of_wf (by simpa [ho] using hs),
      fun o ho => regOk_of_wf (by simpa [ho] using hd)⟩
  · exact h

/-- Settles O51: the checks of the domain say which operands and offsets stand in a record of each format, and each
clause is then the formatter's text for it. -/
theorem renderFollowsTheTemplate : Obligations.RenderFollowsTheTemplate := by
  intro r hr
  obtain ⟨hfmt, hpres, hsize, hoff, hsrc, hdst⟩ := checks_of_inFormatterDomain hr
  have hfmt : r.format = r.mnemonic.format := of_decide_eq_true hfmt
  dsimp only
  rw [spelling_toList, render_toList]
  refine ⟨fun hf => ?_, fun hf hm => ?_, fun hm => ?_, fun hf => ?_⟩
  · obtain ⟨⟨o, ho⟩, p, hp⟩ : (∃ o, r.source = some o) ∧ ∃ p, r.destination = some p := by
      simpa [InstrRecord.presenceOk, hf, Option.isSome_iff_exists] using hpres
    exact ⟨o, p, _, _, ho, hp, (isOperandText_iff (hsrc o ho)).mpr rfl, (isOperandText_iff (hdst p hp)).mpr rfl,
      renderChars_twoOperands (by simp [hf]) ho hp⟩
  · obtain ⟨hs, o, ho⟩ : r.source = none ∧ ∃ o, r.destination = some o := by
      simpa [InstrRecord.presenceOk, hf, hm, Option.isSome_iff_exists] using hpres
    exact ⟨o, _, ho, (isOperandText_iff (hdst o ho)).mpr rfl, renderChars_destinationOnly (by simp [hf]) hs ho⟩
  · have hf : r.format = .singleOperand := by rw [hfmt, hm]; rfl
    obtain ⟨hs, hd⟩ : r.source = none ∧ r.destination = none := by
      simpa [InstrRecord.presenceOk, hf, hm] using hpres
    have hword : r.size = .word := by simpa [InstrRecord.sizeOk, hm, Mnemonic.sizeVariant] using hsize
    rw [render, renderChars_noOperand (by simp [hf]) hs hd, hm, hword]
    rfl
  · obtain ⟨-, off10, -, hob⟩ := (offsets_cases hoff).resolve_left (by simp [hf])
    exact ⟨_, _, hob, isDecimal_iff.mpr rfl, renderChars_conditionalJump hf hob⟩

end Sys2Proof.Machine
end

section
/-! The formatter's text read back: a record that `decode` outputs is determined by its text (R131). The readers below
are no part of the block; each is tied to the formatter by the lemma that it undoes. -/

namespace Sys2Proof.Machine

open Claims

/-! ### The two sides of a separator -/

/-- The characters before the first `c`. -/
def before (c : Char) (text : List Char) : List Char := text.takeWhile (· != c)

/-- The characters after the first `c`. -/
def after (c : Char) (text : List Char) : List Char := (text.dropWhile (· != c)).tail

section
variable {c d : Char} {xs : List Char}

theorem bne_of_not_mem (h : c ∉ xs) : ∀ x ∈ xs, (x != c) = true :=
  fun _ hx => bne_iff_ne.mpr (ne_of_mem_of_not_mem hx h)

theorem before_append (h : c ∉ xs) (ys : List Char) : before c (xs ++ c :: ys) = xs := by
  rw [before, List.takeWhile_append_of_pos (bne_of_not_mem h)]
  simp

theorem after_append (h : c ∉ xs) (ys : List Char) : after c (xs ++ c :: ys) = ys := by
  rw [after, List.dropWhile_append_of_pos (bne_of_not_mem h)]
  simp

@[simp] theorem after_cons_self : after c (c :: xs) = xs := after_append (xs := []) nofun xs

theorem after_cons_of_ne (h : d ≠ c) : after c (d :: xs) = after c xs := by
  simp [after, h]

end

/-! ### Numerals and register names -/

/-- The integer of a decimal numeral. -/
def readInteger (text : List Char) : Int :=
  if '-' ∈ text then -(decimalValue (after '-' text) : Int) else decimalValue text

/-- The register whose name comes first in a text. -/
def readRegister (text : List Char) : Reg :=
  Fin.ofNat 16 (decimalValue ((after 'R' text).takeWhile Char.isDigit))

section
variable {c : Char}

theorem not_mem_toDigits (hc : c.isDigit = false) (n : Nat) : c ∉ Nat.toDigits 10 n := fun h => by
  simp [isDigit_of_mem_toDigits h] at hc

theorem not_mem_numeral (hc : c.isDigit = false) (hm : c ≠ '-') (z : Int) : c ∉ numeral Config.block z := by
  unfold numeral
  split <;> simp [hm, Config.block, not_mem_toDigits hc]

theorem not_mem_regName (hc : c.isDigit = false) (hr : c ≠ 'R') (n : Reg) : c ∉ regName n := by
  simp [regName, hr, not_mem_toDigits hc]

end

theorem letter_mem_regName (n : Reg) : 'R' ∈ regName n := List.mem_cons_self

theorem readInteger_numeral (z : Int) : readInteger (numeral Config.block z) = z := by
  unfold readInteger
  obtain h | h := lt_or_ge z 0
  · simp only [numeral_of_neg h, List.mem_cons_self, if_true, after_cons_self, decimalValue_toDigits]
    omega
  · rw [numeral_of_nonneg h, if_neg (not_mem_toDigits rfl _), decimalValue_toDigits]
    omega

theorem decimalValue_numeral (n : Nat) : decimalValue (numeral Config.block n) = n := by
  rw [numeral_of_nonneg (by omega), Int.natAbs_natCast, decimalValue_toDigits]

theorem readRegister_cons {c : Char} (h : c ≠ 'R') (text : List Char) :
    readRegister (c :: text) = readRegister text := by
  rw [readRegister, after_cons_of_ne h, readRegister]

/-- The name of a register ends at the first character that is no digit. -/
theorem readRegister_regName_append (n : Reg) {text : List Char} (h : text.takeWhile Char.isDigit = []) :
    readRegister (regName n ++ text) = n := by
  have hd : ∀ c ∈ Nat.toDigits 10 n.val, c.isDigit = true := fun _ => isDigit_of_mem_toDigits
  simp [readRegister, regName, List.takeWhile_append_of_pos hd, h, decimalValue_toDigits]

theorem readRegister_regName (n : Reg) : readRegister (regName n) = n := by
  simpa using readRegister_regName_append n (text := []) rfl

/-! ### Operands -/

/-- The operand of a text, its mode told by the marks of R127; the increment is the size's, and the register of an
Absolute operand is 2 (R131). -/
def readOperand (size : OpSize) (text : List Char) : Operand :=
  if '(' ∈ text then regOperand (readRegister (after '(' text)) (.indexed (readInteger (before '(' text)))
  else if '+' ∈ text then regOperand (readRegister text) (.registerIndirectAutoIncrement (incOf size))
  else if '@' ∈ text then regOperand (readRegister text) .registerIndirect
  else if 'R' ∈ text then regOperand (readRegister text) .registerDirect
  else if '#' ∈ text then valueOperand (.immediate (decimalValue text.tail))
  else if '&' ∈ text then regOperand 2 (.absolute (decimalValue text.tail))
  else valueOperand (.constant (readInteger text))

/-- The text of a well-formed operand gives the operand back, its marks the mode and its numerals the payload. -/
theorem readOperand_renderOperand {size : OpSize} {o : Operand} (h : o.wf size = true) :
    readOperand size (renderOperand Config.block o) = o := by
  obtain ⟨reg, mode⟩ := o
  cases mode with
  | registerDirect =>
    obtain ⟨n, rfl, -⟩ := Operand.wf_registerDirect.mp h
    simp [renderOperand, regText, readOperand, readRegister_regName, not_mem_regName, regOperand, letter_mem_regName]
  | indexed off =>
    obtain ⟨n, rfl, -⟩ := Operand.wf_indexed.mp h
    simp [renderOperand, regText, readOperand, before_append, after_append, readRegister_regName_append,
      readInteger_numeral, not_mem_numeral, regOperand]
  | registerIndirect =>
    obtain ⟨n, rfl, -⟩ := Operand.wf_registerIndirect.mp h
    simp [renderOperand, regText, readOperand, readRegister_cons, readRegister_regName, not_mem_regName, regOperand]
  | registerIndirectAutoIncrement inc =>
    obtain ⟨n, rfl, -, -, -, rfl⟩ := Operand.wf_autoIncrement.mp h
    simp [renderOperand, regText, readOperand, readRegister_cons, readRegister_regName_append, not_mem_regName,
      regOperand]
  | immediate val =>
    obtain ⟨rfl, -⟩ := Operand.wf_immediate.mp h
    simp [renderOperand, readOperand, decimalValue_numeral, not_mem_numeral, valueOperand]
  | absolute addr =>
    obtain ⟨rfl, -⟩ := Operand.wf_absolute.mp h
    simp [renderOperand, readOperand, decimalValue_numeral, not_mem_numeral, regOperand]
  | constant c =>
    obtain ⟨rfl, -⟩ := Operand.wf_constant.mp h
    simp [renderOperand, readOperand, readInteger_numeral, not_mem_numeral, valueOperand]

/-- The separator of two operands stands in no operand's text. -/
theorem comma_not_mem_renderOperand {o : Operand} (h : o.regOk = true) : ',' ∉ renderOperand Config.block o := by
  obtain ⟨reg, mode⟩ := o
  cases mode with
  | immediate val | absolute addr | constant c => simp [renderOperand, not_mem_numeral]
  | registerDirect | indexed off | registerIndirect | registerIndirectAutoIncrement inc =>
    obtain ⟨n, rfl⟩ := Option.isSome_iff_exists.mp h
    simp [renderOperand, regText, not_mem_numeral, not_mem_regName]

/-! ### Records -/

/-- The mnemonics of R29. -/
def mnemonics : List Mnemonic :=
  [.mov, .add, .addc, .subc, .sub, .cmp, .dadd, .bit, .bic, .bis, .xor, .and, .rrc, .swpb, .rra, .sxt, .push, .call,
    .reti, .jne, .jeq, .jnc, .jc, .jn, .jge, .jl, .jmp]

/-- The mnemonic of a text's first part. -/
def readMnemonic (head : List Char) : Mnemonic :=
  (mnemonics.find? (·.text = before '.' head)).getD .mov

/-- The size of a text's first part. -/
def readSize (head : List Char) : OpSize :=
  if '.' ∈ head then .byte else .word

/-- The record of a mnemonic, a size and the text after them. -/
def recordOf (m : Mnemonic) (size : OpSize) (body : List Char) : InstrRecord :=
  match m.format with
  | .doubleOperand =>
    let src := readOperand size (before ',' body)
    let dst := readOperand size (after ',' body).tail
    doubleRecord m size src dst (2 + 2 * (src.extension ++ dst.extension).length)
  | .singleOperand =>
    let opd := readOperand size body
    if m = .reti then retiRecord else singleRecord m size opd (2 + 2 * opd.extension.length)
  | .conditionalJump =>
    jumpRecord m (m.condition.getD 0) (BitVec.ofNat 10 (unsigned 10 (readInteger body.tail / 2)))

/-- The record of a text. -/
def readRecord (text : List Char) : InstrRecord :=
  recordOf (readMnemonic (before ' ' text)) (readSize (before ' ' text)) (after ' ' text)

theorem readMnemonic_head (m : Mnemonic) (size : OpSize) : readMnemonic (m.text ++ sizeSuffix size) = m := by
  cases m <;> cases size <;> rfl

theorem readSize_head (m : Mnemonic) (size : OpSize) : readSize (m.text ++ sizeSuffix size) = size := by
  cases m <;> cases size <;> rfl

theorem space_not_mem_head (m : Mnemonic) (size : OpSize) : ' ' ∉ m.text ++ sizeSuffix size := by
  cases m <;> cases size <;> decide

theorem readRecord_append (m : Mnemonic) (size : OpSize) (body : List Char) :
    readRecord (m.text ++ sizeSuffix size ++ ' ' :: body) = recordOf m size body := by
  have h := space_not_mem_head m size
  rw [readRecord, before_append h, after_append h, readMnemonic_head, readSize_head]

theorem renderChars_doubleRecord (m : Mnemonic) (size : OpSize) (src dst : Operand) (len : Nat) :
    renderChars Config.block (doubleRecord m size src dst len) = m.text ++ sizeSuffix size ++
      ' ' :: (renderOperand Config.block src ++ ',' :: ' ' :: renderOperand Config.block dst) := by
  rw [renderChars_twoOperands (r := doubleRecord m size src dst len) nofun rfl rfl]
  simp [doubleRecord]

theorem renderChars_singleRecord (m : Mnemonic) (size : OpSize) (opd : Operand) (len : Nat) :
    renderChars Config.block (singleRecord m size opd len) =
      m.text ++ sizeSuffix size ++ ' ' :: renderOperand Config.block opd := by
  rw [renderChars_destinationOnly (r := singleRecord m size opd len) nofun rfl rfl]
  simp [singleRecord]

theorem renderChars_jumpRecord (m : Mnemonic) (c : Condition) (off10 : BitVec 10) :
    renderChars Config.block (jumpRecord m c off10) =
      m.text ++ sizeSuffix .word ++ ' ' :: '$' :: numeral Config.block (jumpOffset off10).2 := by
  rw [renderChars_conditionalJump rfl rfl]
  simp [jumpRecord, sizeSuffix]

/-- The text of a well-formed record gives the record back: what it does not print, the rest determines (R131). -/
theorem readRecord_renderChars {r : InstrRecord} (h : r.wf = true) : readRecord (renderChars Config.block r) = r := by
  obtain ⟨m, size, src, dst, hm, hs, hd, -, rfl⟩ | ⟨m, size, opd, hm, hr, -, ho, rfl⟩ | rfl |
    ⟨m, c, off10, hm, hc, rfl⟩ := record_cases h
  · have hcomma := comma_not_mem_renderOperand (regOk_of_wf hs)
    rw [renderChars_doubleRecord, readRecord_append]
    simp [recordOf, hm, before_append hcomma, after_append hcomma, readOperand_renderOperand hs,
      readOperand_renderOperand hd]
  · rw [renderChars_singleRecord, readRecord_append]
    simp [recordOf, hm, hr, readOperand_renderOperand ho]
  · rfl
  · have hhalf : (jumpOffset off10).2 / 2 = (jumpOffset off10).1 := Int.mul_ediv_cancel_left _ (by decide)
    rw [renderChars_jumpRecord, readRecord_append]
    simp [recordOf, hm, hc, readInteger_numeral, hhalf, ofNat_unsigned_jumpOffset]

/-- Settles O52: both records are read back from the one text. -/
theorem renderTellsRecordsApart : Obligations.RenderTellsRecordsApart := by
  intro bs bs' r r' h h'
  refine ⟨fun ht => ?_, fun hr => hr ▸ rfl⟩
  rw [← readRecord_renderChars (wf_of_decodeWindow h), String.ofList_injective ht,
    readRecord_renderChars (wf_of_decodeWindow h')]

/-- Settles O50: the three windows are decoded and their records rendered, and the single byte stops at the first word. -/
theorem workedExamplesRender : Obligations.WorkedExamplesRender :=
  ⟨⟨_, rfl, rfl, by decide⟩, ⟨_, rfl, rfl, rfl, rfl, by decide⟩, ⟨_, rfl, rfl, rfl, by decide⟩, by decide⟩

end Sys2Proof.Machine
end

section
/-! The errors of a window in the order of the algorithm (R144), and from it the three outcomes of a window: a record,
`TruncatedInput` of a window too short for its first word (R141, R167), or `UnknownOpcode` (R142). -/

namespace Sys2Proof.Machine

open Claims

/-- A window of at least two bytes starts with a word's bytes (R33). -/
theorem exists_eq_bytesOfWord_append {bs : List Byte} (h : 2 ≤ bs.length) : ∃ w rest, bs = bytesOfWord w ++ rest := by
  match bs, h with
  | lo :: hi :: rest, _ => exact ⟨wordOfBytes lo hi, rest, by rw [bytesOfWord_wordOfBytes]; rfl⟩

@[simp] theorem firstWord_bytesOfWord_append (w : Word) (rest : List Byte) : firstWord (bytesOfWord w ++ rest) = w :=
  (wordAt_present_firstWord State.reset _).symm.trans (wordAt_present_zero State.reset w rest)

theorem sourceExt_of_doubleOperand {w : Word} (h : classify w = some .doubleOperand) :
    sourceExt w = extWords (AddrField.ofNumber (slice w 5 4)) (regField w 8) := if_pos h

theorem sourceExt_of_not_doubleOperand {w : Word} (h : classify w ≠ some .doubleOperand) : sourceExt w = 0 := if_neg h

theorem sourceExt_le (w : Word) : sourceExt w ≤ 1 := by
  unfold sourceExt
  split
  · exact extWords_le _ _
  · exact Nat.zero_le 1

theorem lengthOfWord_eq_none_iff {w : Word} : lengthOfWord w = none ↔ classify w = none := by
  cases hc : classify w with
  | none => simp [lengthOfWord, hc]
  | some fmt => cases fmt <;> simp [lengthOfWord, hc, ite_eq_iff]

/-- The length of a known word, by its class (R53): the first word, the source's word where there is one, and the last
operand's. -/
theorem lengthOfWord_cases {w : Word} {len : Nat} (h : lengthOfWord w = some len) :
    (classify w = some .doubleOperand ∧
      len = 2 + 2 * sourceExt w + 2 * extWords (AddrField.ofNumber (slice w 7 7)) (regField w 0)) ∨
    (classify w = some .singleOperand ∧ slice w 9 7 ≠ 6 ∧ sourceExt w = 0 ∧
      len = 2 + 2 * extWords (AddrField.ofNumber (slice w 5 4)) (regField w 0)) ∨
    (classify w = some .singleOperand ∧ slice w 9 7 = 6 ∧ sourceExt w = 0 ∧ len = 2) ∨
    (classify w = some .conditionalJump ∧ sourceExt w = 0 ∧ len = 2) := by
  unfold lengthOfWord at h
  split at h
  next => cases h
  next hc =>
    cases h
    exact .inr (.inr (.inr ⟨hc, sourceExt_of_not_doubleOperand (by simp [hc]), rfl⟩))
  next hc =>
    cases h
    exact .inl ⟨hc, by rw [sourceExt_of_doubleOperand hc]⟩
  next hc =>
    have hs : sourceExt w = 0 := sourceExt_of_not_doubleOperand (by simp [hc])
    split at h <;> cases h
    next hop => exact .inr (.inr (.inl ⟨hc, hop, hs, rfl⟩))
    next hop => exact .inr (.inl ⟨hc, hop, hs, rfl⟩)

/-- The last operand has at most one extension word, after the source's (R53). -/
theorem lengthOfWord_le {w : Word} {len : Nat} (h : lengthOfWord w = some len) : len ≤ 2 + 2 * sourceExt w + 2 := by
  have hd := extWords_le (AddrField.ofNumber (slice w 7 7)) (regField w 0)
  have hs := extWords_le (AddrField.ofNumber (slice w 5 4)) (regField w 0)
  obtain ⟨-, hl⟩ | ⟨-, -, -, hl⟩ | ⟨-, -, -, hl⟩ | ⟨-, -, hl⟩ := lengthOfWord_cases h <;> omega

/-- A window of fewer than two bytes is `TruncatedInput` (R74). -/
theorem decodeWindow_short {bs : List Byte} (h : bs.length < 2) :
    decodeWindow bs = .error (.truncatedInput 2 bs.length) := by
  rw [decodeWindow, step_short (Nat.not_le_of_lt h), outcomeOf_raiseError]
  rfl

/-- An unknown first word is `UnknownOpcode` (R142). -/
theorem decodeWindow_unknown {bs : List Byte} (hlen : 2 ≤ bs.length) (h : lengthOfWord (firstWord bs) = none) :
    decodeWindow bs = .error (.unknownOpcode (firstWord bs)) :=
  (unknownOpcodeExactlyInItsRanges bs _).mpr ⟨hlen, rfl, classify_none_iff.mp (lengthOfWord_eq_none_iff.mp h)⟩

/-- Settles O39: after the first word, each class misses the words that its assembly reads, in that order; RETI and the
jumps read none. -/
theorem errorsComeInTheOrderOfTheAlgorithm : Obligations.ErrorsComeInTheOrderOfTheAlgorithm := by
  intro bs
  refine ⟨decodeWindow_short, decodeWindow_unknown, fun len hlen h => ?_⟩
  obtain ⟨w, rest, rfl⟩ := exists_eq_bytesOfWord_append hlen
  rw [firstWord_bytesOfWord_append] at h ⊢
  have hlong := Nat.not_lt_of_le hlen
  obtain ⟨hc, rfl⟩ | ⟨hc, hop, hs, rfl⟩ | ⟨hc, hop, hs, rfl⟩ | ⟨hc, hs, rfl⟩ := lengthOfWord_cases h
  · rw [sourceExt_of_doubleOperand hc]
    obtain ⟨hok, hsrc, hdst⟩ :=
      doubleOperandWindowGivesItsRecord w rest (doubleBits_iff.mpr (classify_doubleOperand_iff.mp hc))
    exact ⟨hsrc, hdst, fun h => ⟨_, hok h⟩⟩
  · rw [hs]
    obtain ⟨hlo, hhi⟩ := classify_singleOperand_iff.mp hc
    obtain ⟨-, hok, hcut⟩ := singleOperandWindowGivesItsRecord w rest hlo hhi
    exact ⟨fun h => absurd h hlong, fun _ h => hcut hop h, fun h => ⟨_, hok hop h⟩⟩
  · rw [hs]
    obtain ⟨hlo, hhi⟩ := classify_singleOperand_iff.mp hc
    exact ⟨fun h => absurd h hlong, fun _ h => absurd h hlong,
      fun _ => ⟨_, decodeWindow_reti hlo hhi hop rest⟩⟩
  · rw [hs]
    obtain ⟨_, -, hok⟩ := jumpWindowGivesItsRecord w rest (jumpBits_iff.mpr (classify_conditionalJump_iff.mp hc))
    exact ⟨fun h => absurd h hlong, fun _ h => absurd h hlong, fun _ => ⟨_, hok⟩⟩

/-- A window that ends before its first word does, or before the length its known first word gives (R167). -/
def TooShort (bs : List Byte) : Prop :=
  bs.length < 2 ∨ ∃ len, lengthOfWord (firstWord bs) = some len ∧ bs.length < len

/-- The bytes left at the cursor where a word is missing, 0 or 1, are the parity of the length (D9). -/
theorem decodeWindow_of_tooShort {bs : List Byte} (h : TooShort bs) :
    decodeWindow bs = .error (.truncatedInput 2 (bs.length % 2)) := by
  obtain ⟨hshort, -, hknown⟩ := errorsComeInTheOrderOfTheAlgorithm bs
  by_cases h2 : bs.length < 2
  · rw [hshort h2, Nat.mod_eq_of_lt h2]
  obtain ⟨len, hl, hlt⟩ := h.resolve_left h2
  obtain ⟨hsrc, hlast, -⟩ := hknown len (by omega) hl
  have hs := sourceExt_le (firstWord bs)
  have hle := lengthOfWord_le hl
  by_cases hcut : bs.length < 2 + 2 * sourceExt (firstWord bs)
  · rw [hsrc hcut, show bs.length - 2 = bs.length % 2 by omega]
  · rw [hlast (by omega) hlt, show bs.length - (2 + 2 * sourceExt (firstWord bs)) = bs.length % 2 by omega]

/-- A window that is long enough gives a record, or has an unknown first word (R144, R167). -/
theorem decodeWindow_of_not_tooShort {bs : List Byte} (h : ¬ TooShort bs) :
    (∃ r, decodeWindow bs = .ok r) ∨ decodeWindow bs = .error (.unknownOpcode (firstWord bs)) := by
  obtain ⟨h2, hlen⟩ := not_or.mp h
  obtain ⟨-, hunknown, hknown⟩ := errorsComeInTheOrderOfTheAlgorithm bs
  cases hl : lengthOfWord (firstWord bs) with
  | none => exact .inr (hunknown (by omega) hl)
  | some len =>
    obtain ⟨-, -, hok⟩ := hknown len (by omega) hl
    exact .inl (hok (Nat.le_of_not_lt fun hlt => hlen ⟨len, hl, hlt⟩))

/-- Settles O36: a window too short raises it with its parity, and one long enough does not raise it. -/
theorem truncatedInputExactlyWhenTooShort : Obligations.TruncatedInputExactlyWhenTooShort := by
  intro bs needed available
  change _ ↔ needed = 2 ∧ available = bs.length % 2 ∧ TooShort bs
  by_cases h : TooShort bs
  · simp [decodeWindow_of_tooShort h, h, eq_comm]
  · obtain ⟨r, hr⟩ | hr := decodeWindow_of_not_tooShort h <;> simp [hr, h]

/-! The outputs under each outcome that an activation gives (R12, R149). -/

@[simp] theorem outputs_ok (r : InstrRecord) : (Output.ok r).status = some 0 ∧ (Output.ok r).record = some r ∧
    (Output.ok r).errNeeded = none ∧ (Output.ok r).errAvailable = none ∧ (Output.ok r).errRawWord = none :=
  ⟨rfl, rfl, rfl, rfl, rfl⟩

@[simp] theorem outputs_truncatedInput (n a : Nat) :
    (Output.error (.truncatedInput n a)).status = some 1 ∧ (Output.error (.truncatedInput n a)).record = none ∧
    (Output.error (.truncatedInput n a)).errNeeded = some (BitVec.ofNat 3 n) ∧
    (Output.error (.truncatedInput n a)).errAvailable = some (BitVec.ofNat 3 a) ∧
    (Output.error (.truncatedInput n a)).errRawWord = none :=
  ⟨rfl, rfl, rfl, rfl, rfl⟩

@[simp] theorem outputs_unknownOpcode (w : Word) :
    (Output.error (.unknownOpcode w)).status = some 2 ∧ (Output.error (.unknownOpcode w)).record = none ∧
    (Output.error (.unknownOpcode w)).errNeeded = none ∧ (Output.error (.unknownOpcode w)).errAvailable = none ∧
    (Output.error (.unknownOpcode w)).errRawWord = some w :=
  ⟨rfl, rfl, rfl, rfl, rfl⟩

/-- Settles O49: every window gives one of three outcomes, and each is under its own status. -/
theorem statusOutputNamesTheOutcome : Obligations.StatusOutputNamesTheOutcome := by
  intro bs
  by_cases h : TooShort bs
  · exact ⟨1, by simp [decodeWindow_of_tooShort h]⟩
  · obtain ⟨r, hr⟩ | hr := decodeWindow_of_not_tooShort h
    · exact ⟨0, by simp [hr]⟩
    · exact ⟨2, by simp [hr]⟩

end Sys2Proof.Machine
end

section
/-! The implementation parameters (D5, D9): which of them an operand's resolution depends on, and where. -/

namespace Sys2Proof.Machine

open Claims

section

variable {cfg cfg' : Config} {mode : AddrField} {reg : Reg} {size : OpSize} {s t : State} {o : Operand}

/-- The cursor reads no parameter but the payload rule (D9). -/
theorem takeWord_congr (h : cfg.truncPayload = cfg'.truncPayload) (s : State) : takeWord cfg s = takeWord cfg' s := by
  simp only [takeWord, truncatedAt, h]

/-- The resolver reads no parameter but the cursor's: the one of D5 belongs to the destination alone. -/
theorem resolve_congr (h : cfg.truncPayload = cfg'.truncPayload) (mode : AddrField) (reg : Reg) (size : OpSize)
    (s : State) : resolve cfg mode reg size s = resolve cfg' mode reg size s := by
  cases mode with
  | f00 | f10 => rfl
  | f01 => simp only [resolve, resolve01, takeWord_congr h]
  | f11 => simp only [resolve, resolve11, takeWord_congr h]

/-- Away from register 3 with field `01` a destination is resolved by the one resolver under every parameter (U4). -/
theorem resolveDestination_of_ne (h : ¬ (mode = .f01 ∧ reg = 3)) :
    resolveDestination cfg mode reg size s = resolve cfg mode reg size s :=
  if_neg fun hcg2 => h hcg2.2

/-- What the resolver answers where it succeeds is the same under all parameters: the table's cell, past its word. -/
theorem resolve_eq_ok_iff : resolve cfg mode reg size s = .ok o t ↔
    (extWords mode reg = 0 ∨ s.pos + 2 ≤ s.window.len) ∧ dispatchTable mode reg size (s.wordAt s.pos) = o ∧
      { s with pos := s.pos + 2 * extWords mode reg } = t := by
  by_cases hf : extWords mode reg = 0 ∨ s.pos + 2 ≤ s.window.len
  · simp [resolve_ok hf, hf]
  · obtain ⟨he, hp⟩ := not_or.mp hf
    simp [resolve_raised ((extWords_cases mode reg).resolve_left he) hp, he, hp]

/-- The destination's resolver succeeds alike under parameters that agree on D5. -/
theorem resolveDestination_ok_congr (h : cfg.dstCg2Indexed = cfg'.dstCg2Indexed) :
    resolveDestination cfg mode reg size s = .ok o t ↔ resolveDestination cfg' mode reg size s = .ok o t := by
  simp only [resolveDestination, h]
  split
  · by_cases hp : s.pos + 2 ≤ s.window.len
    · rw [takeWord_ok hp, takeWord_ok hp]
    · simp [takeWord_raised hp]
  · rw [resolve_eq_ok_iff, resolve_eq_ok_iff]

section

variable {r : InstrRecord} (hr : t.out = .ok r)

include hr

/-- An error is no record. -/
theorem raiseError_ne_next (e : DecodeError) (s : State) : raiseError e s ≠ .next t := by
  rintro ⟨⟩
  cases hr

/-- `assemble_double` ends in a record exactly where both operands resolve (R85). -/
theorem assembleDouble_record_iff {m : Mnemonic} {f : DoubleFields} : assembleDouble cfg m f s = .next t ↔
    ∃ src s1 dst s2, resolve cfg f.srcField f.srcReg f.size s = .ok src s1 ∧
      resolveDestination cfg f.dstField f.dstReg f.size s1 = .ok dst s2 ∧
      returnOk (doubleRecord m f.size src dst (consumed s2)) s2 = .next t := by
  unfold assembleDouble
  cases resolve cfg f.srcField f.srcReg f.size s with
  | raised e s1 => simp [raiseError_ne_next hr]
  | ok src s1 =>
    cases hd : resolveDestination cfg f.dstField f.dstReg f.size s1 with
    | raised e s2 => simp [hd, raiseError_ne_next hr]
    | ok dst s2 => simp [hd]

/-- `assemble_single` ends in a record exactly where its operand resolves (R100). -/
theorem assembleSingle_record_iff {m : Mnemonic} : assembleSingle cfg m size mode reg s = .next t ↔
    ∃ opd s1, resolve cfg mode reg size s = .ok opd s1 ∧
      returnOk (singleRecord m size opd (consumed s1)) s1 = .next t := by
  unfold assembleSingle
  cases resolve cfg mode reg size s with
  | raised e s1 => simp [raiseError_ne_next hr]
  | ok opd s1 => simp

end

end

/-- Settles O21: a record needs every operand resolved, and what a resolved operand is does not depend on the payload
rule. -/
theorem payloadParameterChangesNoRecord : Obligations.PayloadParameterChangesNoRecord := by
  intro cfg m f s t r hr
  constructor
  · simp only [assembleDouble_record_iff hr, resolve_eq_ok_iff]
    simp only [resolveDestination_ok_congr (cfg := { cfg with truncPayload := .atCursor })
      (cfg' := { cfg with truncPayload := .cumulative }) rfl]
  · simp only [assembleSingle_record_iff hr, resolve_eq_ok_iff]

/-- Settles O20: only the destination's resolver reads the parameter, and only at register 3 with field `01`. -/
theorem destinationParameterTouchesRegister3Only : Obligations.DestinationParameterTouchesRegister3Only := by
  intro cfg m f s
  have hres := resolve_congr (cfg := { cfg with dstCg2Indexed := true })
    (cfg' := { cfg with dstCg2Indexed := false }) rfl
  refine ⟨fun hne => ?_, fun size field reg => ?_, fun hp => ⟨?_, rfl⟩⟩
  · simp only [assembleDouble, resolveDestination_of_ne hne, hres]
  · simp only [assembleSingle, hres]
  · simp only [resolveDestination, takeWord_ok hp]
    rfl

end Sys2Proof.Machine
end

section
/-! The length law (R167): a known first word fixes a length, the window is long enough for it or not, and accordingly
the activation ends in a record of that length, at that cursor position, or in `TruncatedInput`. -/

namespace Sys2Proof.Machine

open Claims

/-- From `s`, an instruction that ends `n` bytes into the window: its record where the window reaches that far, and
`TruncatedInput` where it does not. -/
def EndsByLength (n : Nat) (s : State) (o : Host.Outcome State Fault Refusal) : Prop :=
  (n ≤ s.window.len ∧ ∃ r, r.length = n ∧ o = .next ⟨s.window, n, .ok r⟩) ∨
    (s.window.len < n ∧ ∃ p, o = .next (truncatedAtCursor p s))

theorem assembleDouble_endsByLength {s : State} (hp : s.pos ≤ s.window.len) (m : Mnemonic) (f : DoubleFields) :
    EndsByLength (afterBoth f s) s (assembleDouble Config.block m f s) := by
  have ha := extWords_cases f.srcField f.srcReg
  have hb := extWords_cases f.dstField f.dstReg
  have hend : afterBoth f s = afterSource f s + 2 * extWords f.dstField f.dstReg := rfl
  have hmid : afterSource f s = s.pos + 2 * extWords f.srcField f.srcReg := rfl
  by_cases hs : afterSource f s ≤ s.window.len
  · have hsrc : extWords f.srcField f.srcReg = 1 → s.pos + 2 ≤ s.window.len := by omega
    by_cases hd : afterBoth f s ≤ s.window.len
    · exact .inl ⟨hd, _, rfl, assembleDouble_done hsrc (by omega) m⟩
    · exact .inr ⟨by omega, _, assembleDouble_destination_missing hsrc (by omega) (by omega) m⟩
  · exact .inr ⟨by omega, _, assembleDouble_source_missing (by omega) (by omega) m⟩

theorem assembleSingle_endsByLength {s : State} (hp : s.pos ≤ s.window.len) (m : Mnemonic) (size : OpSize)
    (field : AddrField) (reg : Reg) :
    EndsByLength (s.pos + 2 * extWords field reg) s (assembleSingle Config.block m size field reg s) := by
  have he := extWords_cases field reg
  by_cases h : s.pos + 2 * extWords field reg ≤ s.window.len
  · exact .inl ⟨h, _, rfl, assembleSingle_done (by omega) m size⟩
  · exact .inr ⟨by omega, _, assembleSingle_missing (by omega) (by omega) m size⟩

/-- A meaning that reads no word ends in its record where it starts. -/
theorem returnOk_endsByLength {s : State} {r : InstrRecord} (hp : s.pos ≤ s.window.len) (hr : r.length = s.pos) :
    EndsByLength s.pos s (returnOk r s) :=
  .inl ⟨hp, r, hr, rfl⟩

/-- An activation with a known first word ends by the length of that word (R53, R72). -/
theorem step_endsByLength {s : State} {n : Nat} (h2 : 2 ≤ s.window.len) (hn : lengthOfWord (s.wordAt 0) = some n) :
    EndsByLength n s (step s) := by
  have known {fmt : Format} {i : Instr} (hc : classify (s.wordAt 0) = some fmt)
      (hi : lookup fmt (s.wordAt 0) = some i) : step s = exec i { s with pos := 2 } :=
    step_known h2 (decodeWord_of_lookup hc hi)
  obtain ⟨hc, rfl⟩ | ⟨hc, hop, -, rfl⟩ | ⟨hc, hop, -, rfl⟩ | ⟨hc, -, rfl⟩ := lengthOfWord_cases hn <;>
    obtain ⟨i, hi⟩ := lookup_total hc <;> rw [known hc hi]
  · rw [exec_eq_assembleDouble_of_doubleInstr hi, sourceExt_of_doubleOperand hc]
    exact assembleDouble_endsByLength (s := { s with pos := 2 }) h2 _ (doubleFields (s.wordAt 0))
  · rw [exec_eq_assembleSingle_of_singleInstr hi hop]
    exact assembleSingle_endsByLength (s := { s with pos := 2 }) h2 _ _ _ _
  · obtain rfl : Instr.reti = i := by simpa [lookup, singleInstr, hop] using hi
    exact returnOk_endsByLength (s := { s with pos := 2 }) h2 rfl
  · obtain ⟨c, -, hexec⟩ := exec_eq_assembleJump_of_jumpInstr hi
    rw [hexec]
    exact returnOk_endsByLength (s := { s with pos := 2 }) h2 rfl

/-- The first word gives 2, 4 or 6 (R53). -/
theorem lengthOfWord_values {w : Word} {n : Nat} (h : lengthOfWord w = some n) : n = 2 ∨ n = 4 ∨ n = 6 := by
  have hs := sourceExt_le w
  have ha := extWords_le (AddrField.ofNumber (slice w 7 7)) (regField w 0)
  have hb := extWords_le (AddrField.ofNumber (slice w 5 4)) (regField w 0)
  obtain ⟨-, hl⟩ | ⟨-, -, -, hl⟩ | ⟨-, -, -, hl⟩ | ⟨-, -, hl⟩ := lengthOfWord_cases h <;> omega

/-- A window that gives a record holds a first word, and one of known length. -/
theorem lengthOfWord_of_step_ok {s t : State} {r : InstrRecord} (h : step s = .next t) (hr : t.out = .ok r) :
    2 ≤ s.window.len ∧ ∃ n, lengthOfWord (s.wordAt 0) = some n := by
  obtain ⟨-, hs⟩ | ⟨-, e, -, hs⟩ | ⟨h2, i, hi, -⟩ := step_cases s
  · exact absurd (hs.symm.trans h) (raiseError_ne_next hr _ _)
  · exact absurd (hs.symm.trans h) (raiseError_ne_next hr _ _)
  · obtain ⟨fmt, hc, -⟩ := decodeWord_ok_cases hi
    refine ⟨h2, Option.ne_none_iff_exists'.mp fun hn => ?_⟩
    rw [lengthOfWord_eq_none_iff.mp hn] at hc
    cases hc

/-- Settles O43: the activation ends by the length of its first word, in both directions. -/
theorem lengthLaw : Obligations.LengthLaw := by
  refine ⟨fun s t r h hr => ?_, fun s len hl h2 hlen => ?_⟩
  · obtain ⟨h2, n, hn⟩ := lengthOfWord_of_step_ok h hr
    obtain ⟨hle, r', rfl, hs⟩ | ⟨-, p, hs⟩ := step_endsByLength h2 hn <;> cases hs.symm.trans h <;> cases hr
    exact ⟨rfl, lengthOfWord_values hn, hle, hn⟩
  · obtain ⟨-, r, -, hs⟩ | ⟨hlt, -⟩ := step_endsByLength h2 hl
    · exact ⟨_, r, hs, rfl⟩
    · exact absurd hlen (Nat.not_le_of_lt hlt)

end Sys2Proof.Machine
end

section
/-! Which bytes of a window its outcome depends on (R160, R161, R163): none that an activation does not read. -/

namespace Sys2Proof.Machine

open Claims

/-- Settles O44: an activation starts its cursor anew and never reads the old outcome. -/
theorem activationDependsOnTheWindowAlone : Obligations.ActivationDependsOnTheWindowAlone :=
  fun _ _ => step_congr

/-- The length law of a presented window. -/
theorem length_of_decodeWindow_ok {bs : List Byte} {r : InstrRecord} (h : decodeWindow bs = .ok r) :
    2 ≤ r.length ∧ r.length ≤ bs.length ∧ lengthOfWord (firstWord bs) = some r.length := by
  obtain ⟨k, out, -, -, hs⟩ := step_frame (State.reset.present bs)
  rw [decodeWindow, hs] at h
  obtain ⟨-, hval, hle, hword⟩ := lengthLaw.1 _ _ r hs h
  rw [wordAt_present_firstWord] at hword
  exact ⟨by omega, hle, hword⟩

/-- An operand of an instruction within the bytes that two windows share is the same cell in both: it reads no word,
or one of those bytes. -/
theorem dispatchTable_congr_below {bs bs' : List Byte} {n p : Nat} (hagree : ∀ a < n, bs[a]? = bs'[a]?)
    {mode : AddrField} {reg : Reg} (h : p + 2 * extWords mode reg ≤ n) (size : OpSize) :
    dispatchTable mode reg size (wordAtOffset bs p) = dispatchTable mode reg size (wordAtOffset bs' p) := by
  obtain he | he := extWords_cases mode reg
  · exact dispatchTable_congr he size _ _
  · rw [wordAtOffset, wordAtOffset, hagree p (by omega), hagree (p + 1) (by omega)]

/-- Two windows that agree on the length of their first word, and reach so far, decode alike (R161). -/
theorem decodeWindow_congr_below {bs bs' : List Byte} {n : Nat} (hn : lengthOfWord (firstWord bs) = some n)
    (h : n ≤ bs.length) (h' : n ≤ bs'.length) (hagree : ∀ a < n, bs[a]? = bs'[a]?) :
    decodeWindow bs = decodeWindow bs' := by
  have h2 : 2 ≤ n := by have := lengthOfWord_values hn; omega
  have hfirst : firstWord bs = firstWord bs' := by
    rw [firstWord, firstWord, hagree 0 (by omega), hagree 1 (by omega)]
  obtain ⟨w, rest, rfl⟩ := exists_eq_bytesOfWord_append (h2.trans h)
  obtain ⟨w', rest', rfl⟩ := exists_eq_bytesOfWord_append (h2.trans h')
  rw [firstWord_bytesOfWord_append] at hn
  obtain rfl : w = w' := by simpa using hfirst
  obtain ⟨hc, rfl⟩ | ⟨hc, hop, -, rfl⟩ | ⟨hc, hop, -, rfl⟩ | ⟨hc, -, rfl⟩ := lengthOfWord_cases hn
  · rw [sourceExt_of_doubleOperand hc] at h h' hagree
    have hd := doubleBits_iff.mpr (classify_doubleOperand_iff.mp hc)
    obtain ⟨hok, -, -⟩ := doubleOperandWindowGivesItsRecord w rest hd
    obtain ⟨hok', -, -⟩ := doubleOperandWindowGivesItsRecord w rest' hd
    rw [hok h, hok' h', dispatchTable_congr_below hagree (Nat.le_add_right _ _),
      dispatchTable_congr_below hagree le_rfl]
  · obtain ⟨hlo, hhi⟩ := classify_singleOperand_iff.mp hc
    obtain ⟨-, hok, -⟩ := singleOperandWindowGivesItsRecord w rest hlo hhi
    obtain ⟨-, hok', -⟩ := singleOperandWindowGivesItsRecord w rest' hlo hhi
    rw [hok hop h, hok' hop h', dispatchTable_congr_below hagree le_rfl]
  · obtain ⟨hlo, hhi⟩ := classify_singleOperand_iff.mp hc
    rw [decodeWindow_reti hlo hhi hop, decodeWindow_reti hlo hhi hop]
  · have hj := jumpBits_iff.mpr (classify_conditionalJump_iff.mp hc)
    obtain ⟨c, hcond, hok⟩ := jumpWindowGivesItsRecord w rest hj
    obtain ⟨c', hcond', hok'⟩ := jumpWindowGivesItsRecord w rest' hj
    rw [hok, hok', Fin.ext (hcond.trans hcond'.symm)]

/-- Settles O45: the record's length is its first word's, and the new window has the same bytes up to there. -/
theorem prefixIndependence : Obligations.PrefixIndependence := by
  intro bs r h suffix
  obtain ⟨-, hle, hword⟩ := length_of_decodeWindow_ok h
  have htake : (bs.take r.length).length = r.length := List.length_take_of_le hle
  rw [← h]
  refine (decodeWindow_congr_below hword hle ?_ fun a ha => ?_).symm
  · rw [List.length_append, htake]
    exact Nat.le_add_right _ _
  · rw [List.getElem?_append_left (by omega), List.getElem?_take_of_lt ha]

/-- Settles O46, by what characterises each error: the first word, or with it the number of bytes. -/
theorem errorsIgnoreTheBytesAfterTheFirstWord : Obligations.ErrorsIgnoreTheBytesAfterTheFirstWord := by
  intro b0 b1 rest rest'
  refine ⟨fun w h => ?_, fun n a hlen h => ?_, ?_⟩
  · obtain ⟨-, hw⟩ := (unknownOpcodeExactlyInItsRanges _ w).mp h
    exact (unknownOpcodeExactlyInItsRanges _ w).mpr ⟨Nat.le_add_left 2 rest'.length, hw⟩
  · have hl : (b0 :: b1 :: rest).length = (b0 :: b1 :: rest').length := by simp [hlen]
    rw [truncatedInputExactlyWhenTooShort, hl] at h
    exact (truncatedInputExactlyWhenTooShort _ n a).mpr h
  · have short (b : Byte) : decodeWindow [b] = .error (.truncatedInput 2 1) := decodeWindow_short Nat.one_lt_two
    rw [short, short]

/-- The source that `assemble_double` reports is the cell of its field and register (R80, R85). -/
theorem source_of_assembleDouble {m : Mnemonic} {f : DoubleFields} {s : State} {r : InstrRecord}
    (h : outcomeOf (assembleDouble Config.block m f s) = .ok r) :
    ∃ x, r.source = some (dispatchTable f.srcField f.srcReg f.size x) := by
  obtain ⟨src, dst, p, -, hsrc, -, hr⟩ | ⟨-, -, hr⟩ | ⟨-, -, -, hr⟩ := assembleDouble_cases m f s <;>
    rw [hr] at h <;> cases h
  exact ⟨_, congrArg some (eq_dispatchTable_of_resolve hsrc)⟩

/-- A cell that the constant generators serve is its constant whatever word follows, and reads none (R163). -/
theorem constantGenerator_cell {field reg : Nat} {c : Int}
    (h : (field, reg, c) ∈ [(0, 3, 0), (1, 3, 1), (2, 3, 2), (3, 3, -1), (2, 2, 4), (3, 2, 8)]) :
    ∃ hreg : reg < 16, extWords (AddrField.ofNumber field) ⟨reg, hreg⟩ = 0 ∧
      ∀ size x, dispatchTable (AddrField.ofNumber field) ⟨reg, hreg⟩ size x = ⟨none, .constant c⟩ := by
  fin_cases h <;> exact ⟨by decide, rfl, fun _ _ => rfl⟩

/-- Settles O19: a constant generator's cell adds no word to the length and is its constant in the record. -/
theorem constantGeneratorsIgnoreTheBytesAfter : Obligations.ConstantGeneratorsIgnoreTheBytesAfter := by
  intro w c field reg hrow hfield
  obtain ⟨hlt, hext, hcell⟩ := constantGenerator_cell hrow
  have hsrc (h : slice w 11 8 = reg) : regField w 8 = ⟨reg, hlt⟩ := regField_eq h
  have hopd (h : slice w 3 0 = reg) : regField w 0 = ⟨reg, hlt⟩ := regField_eq h
  refine ⟨fun hd hreg rest r h => ?_, fun hd hreg hAd rest => ?_, fun hlo hhi hreg rest => ?_⟩
  · rw [decodeWindow_double (doubleBits_iff.mpr hd)] at h
    obtain ⟨x, hx⟩ := source_of_assembleDouble h
    rw [hx, doubleFields, hfield, hsrc hreg, hcell]
  · obtain ⟨hok, -, -⟩ := doubleOperandWindowGivesItsRecord w rest (doubleBits_iff.mpr hd)
    rw [hfield, hsrc hreg, hAd, hext, hcell] at hok
    exact ⟨_, hok (two_le_len_of_bytesOfWord w rest), rfl, rfl⟩
  · obtain ⟨-, hok, -⟩ := singleOperandWindowGivesItsRecord w rest hlo (by omega)
    rw [hfield, hopd hreg, hext, hcell] at hok
    have hop : slice w 9 7 ≠ 6 := by
      simp only [slice]
      omega
    exact ⟨_, hok hop (two_le_len_of_bytesOfWord w rest), rfl, rfl⟩

end Sys2Proof.Machine
end
